-- ==== Sys2Proof/Config.lean ====
section
/-! DEFINITION. What an implementation fixes and the spec leaves open: the parameters a model takes as arguments
(00_scope.md R10, R12) and the one free choice (60_exceptions.md R170). -/

namespace Sys2Proof

/-- `ERROR_SELECT` (60_exceptions.md R170): which of several applicable errors is reported. -/
inductive ErrorSelect where
  | canonical      -- the order of R169
  | anyApplicable  -- any applicable kind, the prior's error always first
  deriving DecidableEq, Repr

/-- The parameters of the model (00_scope.md R12). State holds one such record and no step changes it, so a claim
about every state is a claim for every value of them. -/
structure Params where
  maxDataLen  : Nat          -- MAX_DATA_LEN, in bytes (R10)
  maxSeqLen   : Nat          -- MAX_SEQ_LEN, in entries (R10)
  errorSelect : ErrorSelect  -- R170
  deriving DecidableEq, Repr

/-- The parameters of `State.reset`. DESIGN CHOICE (log entry 3): the spec gives no bound, so both are the largest
number a `LEN` or `COUNT` field can spell. `CANONICAL` is the default that R170 names. -/
def Config.params : Params :=
  { maxDataLen := 2 ^ 64 - 1, maxSeqLen := 2 ^ 64 - 1, errorSelect := .canonical }

/-- FREE VALUE (log entry 5): under `ANY_APPLICABLE` the spec lets any applicable kind be reported (R170). The
n-th such choice picks the position that this constant has at `n`, modulo the number of applicable kinds. -/
opaque Config.errorChoice : Nat → Nat

end Sys2Proof
end

