-- ==== Sys2Proof/Word.lean ====
section
/-! DEFINITION. The words and the operand values of the commands: bytes, 32-bit checksums, 64-bit host integers,
element sizes, tagged values and sequence entries (00_scope.md R7 to R9, R14, R15, R17; 30_encoding.md R60). -/

namespace Sys2Proof

/-- `u8` (R14). -/
abbrev Byte := BitVec 8

/-- `u32`: a checksum, or the engine's register (R7, R14). -/
abbrev U32 := BitVec 32

/-- `i64`: 64 bits in two's complement; its value is `toInt` (R9, R14). -/
abbrev I64 := BitVec 64

/-- `Bytes`: a finite list of bytes, the first one first consumed (R15). -/
abbrev Bytes := List Byte

/-- A legal element size: 1, 2, 4 or 8 bytes and no other (R8). -/
inductive ESize where
  | one | two | four | eight
  deriving DecidableEq, Repr

/-- A sequence key or value as the Host hands it over: an integer, or any host value that is none (R17). -/
inductive TaggedValue where
  | int (v : I64)
  | nonint
  deriving DecidableEq, Repr

/-- One entry of a structured sequence (R60). -/
structure Entry where
  key : TaggedValue
  val : TaggedValue
  deriving DecidableEq, Repr

end Sys2Proof
end

