-- ==== Sys2Proof/Syntax.lean ====
section
/-! DEFINITION. The command set, one constructor per row of spec/opcode_table.json (30_encoding.md R60). -/

namespace Sys2Proof

/-- A command of the block (30_encoding.md R60), operands in the order of the source's signatures (R74). -/
inductive Instr where
  | valueB  (data : Bytes)                                  -- VALUE.B, R141
  | valueS  (esize : I64) (seq : List Entry)                -- VALUE.S, R142
  | extendB (data : Bytes) (prior : I64)                    -- EXTEND.B, R143
  | extendS (esize : I64) (seq : List Entry) (prior : I64)  -- EXTEND.S, R144
  deriving DecidableEq, Repr

end Sys2Proof
end

