-- ==== Sys2Proof/WellFormed.lean ====
section
/-! DEFINITION. Which commands are well-formed: the bounds of 00_scope.md R10 and the distinct integer keys of
30_encoding.md R72. Every other operand value is legal as an encoding (R64). -/

namespace Sys2Proof

/-- The integer of a tagged value, if it is one. -/
def TaggedValue.int? : TaggedValue → Option I64
  | .int v => some v
  | .nonint => none

/-- The integer keys of a sequence, in frame order. -/
def intKeys (seq : List Entry) : List I64 := seq.filterMap (·.key.int?)

/-- No two entries have the same integer key (R72). Non-integer keys are never compared. -/
def keysDistinct (seq : List Entry) : Bool := decide (intKeys seq).Nodup

/-- The number of data bytes fits the bound (R10) and the `LEN` field (R66, log entry 21). -/
def dataFits (p : Params) (data : Bytes) : Bool :=
  decide (data.length ≤ p.maxDataLen) && decide (data.length < 2 ^ 64)

/-- The number of entries fits the bound (R10) and the `COUNT` field (R67, log entry 21). -/
def seqFits (p : Params) (seq : List Entry) : Bool :=
  decide (seq.length ≤ p.maxSeqLen) && decide (seq.length < 2 ^ 64)

/-- A well-formed command (R60, R71, R72), under the parameters `p`. -/
def WellFormed (p : Params) : Instr → Bool
  | .valueB data => dataFits p data
  | .valueS _ seq => seqFits p seq && keysDistinct seq
  | .extendB data _ => dataFits p data
  | .extendS _ seq _ => seqFits p seq && keysDistinct seq

end Sys2Proof
end

