-- ==== Sys2Proof/Decode.lean ====
section
/-! DEFINITION. Frames: the decoder of 30_encoding.md R61 to R73, total and rejecting by name, and the encoder
written from the same formats. -/

namespace Sys2Proof

/-- Why a frame spells no command: the reasons of 30_encoding.md R71, in its order. All are refusals, so all are
safe: nothing is claimed about a run that issues such a frame. -/
inductive FrameRefusal where
  | reservedHeaderBits  -- RESERVED_HEADER_BITS: HDR[31:2] ≠ 0
  | reservedTag         -- RESERVED_TAG: a TAG byte outside 0x00, 0x01
  | nonintPayload       -- NONINT_PAYLOAD: a NONINT tagged value with a non-zero payload
  | overMaxDataLen      -- OVER_MAX_DATA_LEN: LEN > MAX_DATA_LEN
  | overMaxSeqLen       -- OVER_MAX_SEQ_LEN: COUNT > MAX_SEQ_LEN
  | truncated           -- TRUNCATED: shorter than the fields require
  | trailingBytes       -- TRAILING_BYTES: longer than the fields require
  | duplicateKey        -- DUPLICATE_KEY: two entries with the same integer key (R72)
  deriving DecidableEq, Repr

/-! ### Byte order -/

/-- The `n` bytes of `u`, least significant first; what `u` has above them is dropped. -/
def leBytes : Nat → Nat → Bytes
  | 0, _ => []
  | n + 1, u => BitVec.ofNat 8 u :: leBytes n (u / 256)

/-- The number that bytes spell, the first one least significant. -/
def leNat : Bytes → Nat
  | [] => 0
  | b :: bs => b.toNat + 256 * leNat bs

/-! ### The fields of a frame -/

/-- `n` bytes at offset `off`, if the frame holds all of them. -/
def field? (f : Bytes) (off n : Nat) : Option Bytes :=
  if off + n ≤ f.length then some ((f.drop off).take n) else none

/-- Format I (R64): the 8 bytes at `off` as an `i64`. -/
def i64At (f : Bytes) (off : Nat) : I64 := BitVec.ofNat 64 (leNat ((f.drop off).take 8))

/-- `HDR` (R61). -/
def header? (f : Bytes) : Option Nat := (field? f 0 4).map leNat

/-- `HDR` bit 0, `S`: the input is a structured sequence (R61). -/
def sBit (f : Bytes) : Bool := match header? f with
  | some h => h.testBit 0
  | none => false

/-- `HDR` bit 1, `X`: extend a prior checksum (R61). -/
def xBit (f : Bytes) : Bool := match header? f with
  | some h => h.testBit 1
  | none => false

/-- Where `LEN` or `COUNT` stands: after `HDR`, `ESIZE` if `S`, `PRIOR` if `X` (R63). -/
def countOffset (f : Bytes) : Nat := 4 + (if sBit f then 8 else 0) + (if xBit f then 8 else 0)

/-- `LEN` or `COUNT` (R66, R67). -/
def count? (f : Bytes) : Option Nat := (field? f (countOffset f) 8).map leNat

/-- Where `DATA` or the entries begin. -/
def bodyOffset (f : Bytes) : Nat := countOffset f + 8

/-- Bytes per unit of the body: 18 per entry, 1 per data byte (R70). -/
def unitLen (f : Bytes) : Nat := if sBit f then 18 else 1

/-- The length the frame's own fields require, once `LEN` or `COUNT` can be read (R70). -/
def frameLength? (f : Bytes) : Option Nat := (count? f).map fun n => bodyOffset f + unitLen f * n

/-- The operand `ESIZE` of a `.S` frame (R63). -/
def esizeOf (f : Bytes) : I64 := i64At f 4

/-- The operand `PRIOR` of an `EXTEND` frame (R63). -/
def priorOf (f : Bytes) : I64 := i64At f (if sBit f then 12 else 4)

/-- `DATA` (R66). -/
def dataOf (f : Bytes) : Bytes := f.drop (bodyOffset f)

/-- Format TV (R65), read from 9 bytes. -/
def readTV (bs : Bytes) : TaggedValue :=
  if bs.headD 0 = 0 then .int (i64At bs 1) else .nonint

/-- `n` entries of 18 bytes, a key and then a value (R67). -/
def readEntries : Nat → Bytes → List Entry
  | 0, _ => []
  | n + 1, bs => { key := readTV (bs.take 9), val := readTV ((bs.drop 9).take 9) } :: readEntries n (bs.drop 18)

/-- The entries of a `.S` frame (R67). -/
def entriesOf (f : Bytes) : List Entry := readEntries ((count? f).getD 0) (f.drop (bodyOffset f))

/-! ### The refusal reasons of R71 -/

/-- The tagged values that the frame holds a `TAG` byte of, at most `n`: the tag, and as much of the payload as is
there. DESIGN CHOICE (log entry 7): the spec does not say whether R71's reasons look into a short frame. -/
def taggedSlots : Nat → Bytes → List (Byte × Bytes)
  | 0, _ => []
  | _ + 1, [] => []
  | n + 1, t :: rest => (t, rest.take 8) :: taggedSlots n (rest.drop 8)

/-- The tagged values of a `.S` frame: two for each of the `COUNT` entries, as far as the frame reaches. -/
def slotsOf (f : Bytes) : List (Byte × Bytes) :=
  match sBit f, count? f with
  | true, some n => taggedSlots (min (2 * n) f.length) (f.drop (bodyOffset f))
  | _, _ => []

/-- `HDR[31:2]` ≠ 0. -/
def hasReservedHeaderBits (f : Bytes) : Bool := match header? f with
  | some h => decide (4 ≤ h)
  | none => false

/-- Some `TAG` is neither 0x00 nor 0x01. -/
def hasReservedTag (f : Bytes) : Bool := (slotsOf f).any fun s => s.1 != 0 && s.1 != 1

/-- Some `NONINT` tagged value, wholly in the frame, has a payload byte that is not zero. -/
def hasNonintPayload (f : Bytes) : Bool :=
  (slotsOf f).any fun s => s.1 == 1 && s.2.length == 8 && s.2.any (· != 0)

/-- `LEN` > `MAX_DATA_LEN`. -/
def isOverMaxDataLen (p : Params) (f : Bytes) : Bool := match count? f with
  | some n => !sBit f && decide (p.maxDataLen < n)
  | none => false

/-- `COUNT` > `MAX_SEQ_LEN`. -/
def isOverMaxSeqLen (p : Params) (f : Bytes) : Bool := match count? f with
  | some n => sBit f && decide (p.maxSeqLen < n)
  | none => false

/-- The frame is shorter than its fields require. -/
def isTruncated (f : Bytes) : Bool := match frameLength? f with
  | some n => decide (f.length < n)
  | none => true

/-- The frame is longer than its fields require. -/
def hasTrailingBytes (f : Bytes) : Bool := match frameLength? f with
  | some n => decide (n < f.length)
  | none => false

/-- Two entries have the same integer key. -/
def hasDuplicateKey (f : Bytes) : Bool := sBit f && !keysDistinct (entriesOf f)

/-- The reasons of R71 in its order, each with whether it applies to the frame. -/
def refusalList (p : Params) (f : Bytes) : List (FrameRefusal × Bool) :=
  [ (.reservedHeaderBits, hasReservedHeaderBits f),
    (.reservedTag, hasReservedTag f),
    (.nonintPayload, hasNonintPayload f),
    (.overMaxDataLen, isOverMaxDataLen p f),
    (.overMaxSeqLen, isOverMaxSeqLen p f),
    (.truncated, isTruncated f),
    (.trailingBytes, hasTrailingBytes f),
    (.duplicateKey, hasDuplicateKey f) ]

/-- The first reason that applies (R73). -/
def refusalOf (p : Params) (f : Bytes) : Option FrameRefusal :=
  ((refusalList p f).find? (·.2)).map (·.1)

/-! ### The decoder and the encoder -/

/-- The command that the fields of a frame spell; `X` and `S` select it (R62). -/
def readCommand (f : Bytes) : Instr :=
  match xBit f, sBit f with
  | false, false => .valueB (dataOf f)
  | false, true => .valueS (esizeOf f) (entriesOf f)
  | true, false => .extendB (dataOf f) (priorOf f)
  | true, true => .extendS (esizeOf f) (entriesOf f) (priorOf f)

/-- The decoder (R73): every byte string is one command or one refusal reason. -/
def decode (p : Params) (f : Bytes) : Except FrameRefusal Instr :=
  match refusalOf p f with
  | some r => .error r
  | none => .ok (readCommand f)

/-- The header word of a command: bit 0 `S`, bit 1 `X` (R61, R62). -/
def headerWord : Instr → Nat
  | .valueB _ => 0
  | .valueS _ _ => 1
  | .extendB _ _ => 2
  | .extendS _ _ _ => 3

/-- Format TV (R65): the `NONINT` payload is zero. -/
def encodeTV : TaggedValue → Bytes
  | .int v => 0 :: leBytes 8 v.toNat
  | .nonint => 1 :: List.replicate 8 0

/-- An entry: `KEY`, then `VALUE` (R67). -/
def encodeEntry (e : Entry) : Bytes := encodeTV e.key ++ encodeTV e.val

/-- Format BS (R66). -/
def encodeData (data : Bytes) : Bytes := leBytes 8 data.length ++ data

/-- Format SQ (R67), the entries in frame order. -/
def encodeSeq (seq : List Entry) : Bytes := leBytes 8 seq.length ++ seq.flatMap encodeEntry

/-- The fields after `HDR`, in the order of R63. -/
def encodeOperands : Instr → Bytes
  | .valueB data => encodeData data
  | .valueS esize seq => leBytes 8 esize.toNat ++ encodeSeq seq
  | .extendB data prior => leBytes 8 prior.toNat ++ encodeData data
  | .extendS esize seq prior => leBytes 8 esize.toNat ++ leBytes 8 prior.toNat ++ encodeSeq seq

/-- The frame of a command (R61 to R67). -/
def encode (i : Instr) : Bytes := leBytes 4 (headerWord i) ++ encodeOperands i

/-- The frame whose first `nbits` bits are `w` and whose remaining fields are zero, as long as the header's `S` and
`X` require with `LEN` or `COUNT` zero (R63): 12, 20 or 28 bytes. -/
def tableFrame (nbits w : Nat) : Bytes :=
  let given := leBytes (nbits / 8) w
  let len := 12 + (if w.testBit 0 then 8 else 0) + (if w.testBit 1 then 8 else 0)
  given ++ List.replicate (len - given.length) 0

/-- The command this decoder reads from a word of spec/opcode_table.json with operand fields of zeros. -/
def decodeTableWord (nbits w : Nat) : Option Instr :=
  match decode Config.params (tableFrame nbits w) with
  | .ok i => some i
  | .error _ => none

end Sys2Proof
end

