-- ==== Sys2Proof/Machine/State.lean ====
section
/-! DEFINITION. What the machine holds (10_state.md), its responses and errors (30_encoding.md R60, R68, R69), the
reasons a step can stop, and the state after reset (10_state.md R31). -/

namespace Sys2Proof.Machine

/-- `PHASE` (10_state.md R27). -/
inductive Phase where
  | idle  -- no command held; one can be accepted
  | busy  -- exactly one accepted command, its response not yet delivered
  deriving DecidableEq, Repr

/-- The validation errors (60_exceptions.md R161 to R167). Only `valueOutOfRange` records anything: the element
size (R165). `badSignature` is the Host's code; the core never raises it (R167). -/
inductive ErrorKind where
  | invalidElementSize
  | nonIntegerKey
  | nonPositiveKey
  | nonIntegerValue
  | valueOutOfRange (n : ESize)
  | checksumOutOfRange
  | badSignature
  deriving DecidableEq, Repr

/-- A response (30_encoding.md R60): a checksum or one error, never both and never neither (42_commands.md R147). -/
inductive Response where
  | ok (c : U32)
  | err (kind : ErrorKind)
  deriving DecidableEq, Repr

/-- What the outside world does to one instance, one event at a time (log entries 1 and 2). -/
inductive HostEvent where
  | issue (frame : Bytes)   -- a frame, accepted and answered in one atomic step (42_commands.md R140)
  | accept (frame : Bytes)  -- a frame, accepted now and answered by a later step (10_state.md R27)
  | reset                   -- reset is asserted (70_reset_and_hazards.md R180, R181)
  deriving DecidableEq, Repr

/-- Why the machine stops with a fault. -/
inductive Fault where
  /-- `step` raises it in a state that is BUSY without an outstanding command, which 10_state.md R27 rules out. No
  state that meets the invariant raises it. Safe: the model stops (log entry 10). -/
  | busyWithoutCommand
  deriving DecidableEq, Repr

/-- Why a step has no meaning. -/
inductive Refusal where
  /-- `exec` raises it for an instruction that has no meaning yet; there is none. Safe. -/
  | notModelled (mnemonic : String)
  /-- `step` raises it for a frame that spells no command (30_encoding.md R71, R174): this outcome is the refusal
  mark that is never cleared, since no step follows it (log entry 6). Safe: nothing is claimed about the run. -/
  | frame (reason : FrameRefusal)
  deriving DecidableEq, Repr

/-- The machine: one core instance and its two ends towards the Host. -/
structure State where
  params      : Params           -- the model's parameters (00_scope.md R12); no step changes them
  phase       : Phase            -- PHASE (R27)
  outstanding : Option Instr     -- the accepted command whose response is not yet delivered (R27, R31)
  pending     : Option Response  -- a response not yet delivered (R31)
  acc         : U32              -- ACC, the engine's register, in the register domain (R24)
  ebuf        : List Byte        -- EBUF[0..7], the marshaler's encoding buffer (R25); 8 bytes by the invariant
  esz         : ESize            -- ESZ, the latched element size (R26)
  choices     : Nat              -- the model's own: how many free choices were taken (log entry 5)
  issued      : List HostEvent   -- the model's own: what the Host does next, oldest first (log entry 1)
  delivered   : List Response    -- the model's own: the responses the Host received, oldest first (log entry 1)
  deriving DecidableEq, Repr

/-- The state after reset (10_state.md R31, 70_reset_and_hazards.md R180): IDLE, no command, no response. DESIGN
CHOICE: `acc`, `ebuf`, `esz`, which R31 leaves unspecified (log entry 4), the bounds (log entry 3) and `choices`
(log entry 5). -/
def State.reset : State :=
  { params := Sys2Proof.Config.params
    phase := .idle
    outstanding := none
    pending := none
    acc := 0
    ebuf := List.replicate 8 0
    esz := .one
    choices := 0
    issued := []
    delivered := [] }

end Sys2Proof.Machine
end

