-- ==== Sys2Proof/Machine/Operands.lean ====
section
/-! DEFINITION. The operand forms: element sizes, the checks on keys, values and the prior checksum, the ascending
order of positions, and the little-endian encoding of a value (41_marshaler.md; 42_commands.md R145). -/

namespace Sys2Proof

/-! ### The views of an operand -/

/-- The number of bytes n of an element size (R8). -/
def ESize.toNat : ESize → Nat
  | .one => 1
  | .two => 2
  | .four => 4
  | .eight => 8

/-- The integer a key is ordered by. It is read only where check 2a has passed, so the value given to a key that
is no integer is never used. -/
def Entry.position (e : Entry) : Int := match e.key with
  | .int k => k.toInt
  | .nonint => 0

/-- The value as an `Int`. It is read only where check 3 has passed. -/
def Entry.value (e : Entry) : Int := match e.val with
  | .int v => v.toInt
  | .nonint => 0

end Sys2Proof

namespace Sys2Proof.Machine

/-! ### Element sizes -/

/-- Check 1 (41_marshaler.md R112): the operand `ESIZE` names an element size, or none. -/
def esizeOfInt (v : Int) : Option ESize :=
  if v = 1 then some .one
  else if v = 2 then some .two
  else if v = 4 then some .four
  else if v = 8 then some .eight
  else none

/-- `LO(n)` = -2^(8n-1) (R116). -/
def rangeLo (n : ESize) : Int := -(2 ^ (8 * n.toNat - 1))

/-- `HI(n)` = 2^(8n) - 1 (R116). -/
def rangeHi (n : ESize) : Int := 2 ^ (8 * n.toNat) - 1

/-- Check 4 (R116), compared in `Int` (00_scope.md R14); the bounds are inclusive. -/
def inRange (n : ESize) (v : Int) : Bool := decide (rangeLo n ≤ v) && decide (v ≤ rangeHi n)

/-! ### Keys and values -/

/-- Check 2a (R113): the key is no integer. -/
def hasNonIntegerKey (e : Entry) : Bool := e.key == .nonint

/-- Check 2b (R114): the key is an integer ≤ 0. -/
def hasNonPositiveKey (e : Entry) : Bool := match e.key with
  | .int k => decide (k.toInt ≤ 0)
  | .nonint => false

/-- Check 3 (R115): the value is no integer. -/
def hasNonIntegerValue (e : Entry) : Bool := e.val == .nonint

/-- Check 4 (R116): the value is an integer outside the range of the element size. -/
def hasValueOutOfRange (n : ESize) (e : Entry) : Bool := match e.val with
  | .int v => !inRange n v.toInt
  | .nonint => false

/-- The first check that one entry fails, in the order of 60_exceptions.md R169 step 4. -/
def entryError (n : ESize) (e : Entry) : Option ErrorKind :=
  if hasNonPositiveKey e then some .nonPositiveKey
  else if hasNonIntegerValue e then some .nonIntegerValue
  else if hasValueOutOfRange n e then some (.valueOutOfRange n)
  else none

/-! ### Ascending position order (R118) -/

/-- Put an entry in front of the first one whose position is not smaller. -/
def insertByPosition (e : Entry) : List Entry → List Entry
  | [] => [e]
  | x :: xs => if e.position ≤ x.position then e :: x :: xs else x :: insertByPosition e xs

/-- The entries in ascending position order. Positions need not be contiguous: a missing one contributes nothing
(R119, log entry 13). -/
def sortByPosition : List Entry → List Entry
  | [] => []
  | e :: es => insertByPosition e (sortByPosition es)

/-! ### Encoding a value -/

/-- `ENCODE_LE(v, n)` (R120): the n-byte two's-complement pattern of `v`, least significant byte first. -/
def encodeLE (v : Int) (n : ESize) : Bytes :=
  leBytes n.toNat (v % 2 ^ (8 * n.toNat)).toNat

/-! ### The prior checksum -/

/-- `CHECK_PRIOR` (42_commands.md R145): the prior as a `u32`, or `ChecksumOutOfRange`; compared in `Int`. -/
def checkPrior (prior : I64) : Except ErrorKind U32 :=
  if prior.toInt < 0 ∨ 0xFFFFFFFF < prior.toInt then .error .checksumOutOfRange
  else .ok (prior.setWidth 32)

end Sys2Proof.Machine
end

