-- ==== Sys2Proof/Machine/Flags.lean ====
section
/-! DEFINITION. The block's only status: the `STATUS` code of a response and the response frame (30_encoding.md
R68, R69), and which errors apply to a command (60_exceptions.md R168). -/

namespace Sys2Proof.Machine

/-! ### Status codes and response frames -/

/-- The code of an error kind (R69). -/
def ErrorKind.code : ErrorKind → Byte
  | .invalidElementSize => 0x01
  | .nonIntegerKey => 0x02
  | .nonPositiveKey => 0x03
  | .nonIntegerValue => 0x04
  | .valueOutOfRange _ => 0x05
  | .checksumOutOfRange => 0x06
  | .badSignature => 0x07

/-- `info` of `err(kind, info)` (R60): the element size for `ValueOutOfRange`, nothing for the others (R68). -/
def ErrorKind.info : ErrorKind → Option Byte
  | .valueOutOfRange n => some (BitVec.ofNat 8 n.toNat)
  | _ => none

/-- `STATUS` (10_state.md R29): 0x00 with a checksum, an error code otherwise. -/
def Response.status : Response → Byte
  | .ok _ => 0x00
  | .err k => k.code

/-- Format RSP (R68): the response as it goes over the wire. -/
def Response.frame : Response → Bytes
  | .ok c => 0x00 :: leBytes 4 c.toNat
  | .err k => k.code :: k.info.toList

/-- The length of a response frame, which follows from its first byte (R68, R70); none for a code that the core
never produces (R69). -/
def responseLength? : Byte → Option Nat
  | 0x00 => some 5
  | 0x05 => some 2
  | s => if 0x01 ≤ s ∧ s ≤ 0x06 then some 1 else none

/-- How a Host reads a response frame of the core. A code the core never produces (0x07 and above), a wrong length
and a wrong element size answer `none`: the Host treats them as a fault (93_implementation_defined.md I9, I10). -/
def Response.ofFrame (f : Bytes) : Option Response :=
  match f with
  | [0x00, b0, b1, b2, b3] => some (.ok (BitVec.ofNat 32 (leNat [b0, b1, b2, b3])))
  | [0x05, n] => (esizeOfInt n.toNat).map fun z => .err (.valueOutOfRange z)
  | [0x01] => some (.err .invalidElementSize)
  | [0x02] => some (.err .nonIntegerKey)
  | [0x03] => some (.err .nonPositiveKey)
  | [0x04] => some (.err .nonIntegerValue)
  | [0x06] => some (.err .checksumOutOfRange)
  | _ => none

/-- The errors the core raises: every kind but `BadSignature` (R167), and `ValueOutOfRange` only for the sizes 1, 2
and 4 (60_exceptions.md R165, 41_marshaler.md R117). -/
def ErrorKind.raisedByCore : ErrorKind → Bool
  | .badSignature => false
  | .valueOutOfRange .eight => false
  | _ => true

/-- A response the core may give (R69). -/
def Response.fromCore : Response → Bool
  | .ok _ => true
  | .err k => k.raisedByCore

/-! ### The errors that apply (R168) -/

/-- The error of the prior checksum, if it applies (R166). -/
def priorErrors (prior : I64) : List ErrorKind :=
  if prior.toInt < 0 ∨ 0xFFFFFFFF < prior.toInt then [.checksumOutOfRange] else []

/-- The range errors of a sequence: only where the element size is legal (R168). -/
def rangeErrors (esize : I64) (seq : List Entry) : List ErrorKind :=
  match esizeOfInt esize.toInt with
  | none => []
  | some n => if seq.any (hasValueOutOfRange n) then [.valueOutOfRange n] else []

/-- The errors of an element size and a sequence that apply, in the order of R168. -/
def seqErrors (esize : I64) (seq : List Entry) : List ErrorKind :=
  (if esizeOfInt esize.toInt = none then [.invalidElementSize] else []) ++
  (if seq.any hasNonIntegerKey then [.nonIntegerKey] else []) ++
  (if seq.any hasNonPositiveKey then [.nonPositiveKey] else []) ++
  (if seq.any hasNonIntegerValue then [.nonIntegerValue] else []) ++
  rangeErrors esize seq

/-- `Applicable(cmd)` (R168). -/
def applicable : Instr → List ErrorKind
  | .valueB _ => []
  | .valueS esize seq => seqErrors esize seq
  | .extendB _ prior => priorErrors prior
  | .extendS esize seq prior => priorErrors prior ++ seqErrors esize seq

end Sys2Proof.Machine
end

