-- ==== Sys2Proof/Machine/Ops.lean ====
section
/-! DEFINITION. The shared operations: the engine (40_engine.md), the marshaler's registers (10_state.md R25, R26),
accepting a command, delivering a response, raising an error and reset (42_commands.md R140; 60_exceptions.md R170,
R171; 70_reset_and_hazards.md R180, R181). -/

namespace Sys2Proof.Machine

/-! ### The engine's constants (10_state.md R23) -/

/-- `POLY_NORMAL`, the x^32 term implied (40_engine.md R80). -/
def polyNormal : U32 := 0x1EDC6F41

/-- `POLY_REFLECTED`: `POLY_NORMAL` with its bits reversed (R81). -/
def polyReflected : U32 := 0x82F63B78

/-- `SEED` (R82; general knowledge in the spec, log entry 14). -/
def seed : U32 := 0xFFFFFFFF

/-- `XOROUT` (R82). -/
def xorout : U32 := 0xFFFFFFFF

/-! ### The engine's function -/

/-- One shift of the reflected register (R84). -/
def shiftStep (s : U32) : U32 := if s.getLsbD 0 then (s >>> 1) ^^^ polyReflected else s >>> 1

/-- `BYTE_STEP` (R84): the byte enters the low 8 bits, then eight shifts. -/
def byteStep (s : U32) (b : Byte) : U32 :=
  shiftStep (shiftStep (shiftStep (shiftStep (shiftStep (shiftStep (shiftStep (shiftStep
    (s ^^^ b.setWidth 32))))))))

/-- The register after folding in bytes, the first one first (R85). -/
def foldBytes : U32 → Bytes → U32
  | s, [] => s
  | s, b :: bs => foldBytes (byteStep s b) bs

/-- `ENGINE_EXTEND` as a function of its operands (R85, R88). -/
def engineExtend (c : U32) (data : Bytes) : U32 := foldBytes (c ^^^ seed) data ^^^ xorout

/-! ### The transient registers -/

/-- `ACC <- v` (10_state.md R24). -/
def State.withAcc (s : State) (v : U32) : State := { s with acc := v }

/-- `ESZ <- n` (R26). -/
def State.withEsz (s : State) (n : ESize) : State := { s with esz := n }

/-- `EBUF[0..len-1] <- bytes`; the bytes above stay as they are (R25, log entry 12). -/
def State.writeEbuf (s : State) (bytes : Bytes) : State := { s with ebuf := bytes ++ s.ebuf.drop bytes.length }

/-- `EBUF[0..n-1]` (R25). -/
def State.readEbuf (s : State) (n : Nat) : Bytes := s.ebuf.take n

/-- The engine loads `ACC` from the operation's own checksum, in the register domain (R83, R85). -/
def State.loadAcc (s : State) (c : U32) : State := s.withAcc (c ^^^ seed)

/-- The engine folds bytes into `ACC` (R85). -/
def State.foldAcc (s : State) (data : Bytes) : State := s.withAcc (foldBytes s.acc data)

/-- `ENGINE.EXTEND` run on the machine: `ACC` is loaded and then holds the folded register (R85). -/
def State.runEngine (s : State) (c : U32) (data : Bytes) : State := (s.loadAcc c).foldAcc data

/-- The engine's result, read out of `ACC` inverted (R83, R85). -/
def State.engineResult (s : State) : U32 := s.acc ^^^ xorout

/-! ### A command's beginning and end -/

/-- A command is accepted: the instance is BUSY and holds it (10_state.md R27). The events left are `rest`. -/
def State.accept (s : State) (i : Instr) (rest : List HostEvent) : State :=
  { s with phase := .busy, outstanding := some i, pending := none, issued := rest }

/-- A response is computed and waits to be delivered (10_state.md R31). -/
def State.withPending (s : State) (r : Response) : State := { s with pending := some r }

/-- The pending response goes to the Host, and the instance is IDLE again (R27, 60_exceptions.md R171, R172). -/
def State.deliver (s : State) : State :=
  { s with phase := .idle, outstanding := none, pending := none, delivered := s.delivered ++ s.pending.toList }

/-- `respond`: the command ends and its response is delivered (00_scope.md R16). -/
def State.respond (s : State) (r : Response) : State := (s.withPending r).deliver

/-- `respond ok(c)` with the engine's result. -/
def State.respondChecksum (s : State) : State := s.respond (.ok s.engineResult)

/-- Whether the kind reported is a free choice (60_exceptions.md R170): under `ANY_APPLICABLE`, unless the prior's
error applies, which always wins. -/
def State.choosesFreely (s : State) (kinds : List ErrorKind) : Bool :=
  s.params.errorSelect == .anyApplicable && !kinds.contains .checksumOutOfRange

/-- The kind reported (R169, R170): the canonical one, or a free choice among the kinds that apply (log entry 5). The
prior is checked first, so where its error applies it is the canonical one. DESIGN CHOICE (log entries 5 and 18): one
constant `Config.errorChoice` serves every instance at that instance's own counter, so two instances whose counters
agree report the same kind for equal commands, although instances share nothing (R6, R148, R177). -/
def State.reportedKind (s : State) (canonical : ErrorKind) (kinds : List ErrorKind) : ErrorKind :=
  if s.choosesFreely kinds then kinds.getD (Config.errorChoice s.choices % kinds.length) canonical else canonical

/-- A free choice that was taken is counted, so that the next one is free again. -/
def State.countChoice (s : State) (kinds : List ErrorKind) : State :=
  { s with choices := s.choices + (s.choosesFreely kinds).toNat }

/-- `raise` (00_scope.md R16, 60_exceptions.md R171): the command ends at once with one error and no checksum.
`canonical` is the error of R169 and `kinds` are the errors that apply (R168). -/
def State.raise (s : State) (canonical : ErrorKind) (kinds : List ErrorKind) : State :=
  (s.countChoice kinds).respond (.err (s.reportedKind canonical kinds))

/-! ### Reset -/

/-- Reset is asserted (70_reset_and_hazards.md R180, R181): the instance is as after `State.reset`, a command in
flight and an undelivered response are dropped. The parameters, what the Host has received and what it does next are
not the instance's (log entry 16). -/
def State.resetInstance (s : State) (rest : List HostEvent) : State :=
  { State.reset with
    params := s.params, choices := s.choices, issued := rest, delivered := s.delivered }

end Sys2Proof.Machine
end

