-- ==== Sys2Proof/Machine/Marshal.lean ====
section
/-! DEFINITION. The marshaler (41_marshaler.md): `MARSHAL.BYTES` and `MARSHAL.SEQ`, with its writes of `ESZ` and
`EBUF`. -/

namespace Sys2Proof.Machine

/-- `MARSHAL_BYTES` (R110): the identity. -/
def marshalBytes (data : Bytes) : Bytes := data

/-- The ordered walk of `MARSHAL_SEQ` (R124): each entry is checked and then encoded through `EBUF`; the first entry
that fails ends it, and what was encoded is dropped (R125). -/
def marshalWalk (n : ESize) : List Entry → State → State × Except ErrorKind Bytes
  | [], s => (s, .ok [])
  | e :: rest, s =>
    match entryError n e with
    | some k => (s, .error k)
    | none =>
      let t := s.writeEbuf (encodeLE e.value n)
      let u := marshalWalk n rest t
      (u.1, u.2.map (t.readEbuf n.toNat ++ ·))

/-- `MARSHAL_SEQ` (R124), with the canonical order of checks: the element size, then all keys for integers, then the
walk in ascending position order. -/
def marshalSeq (esize : I64) (seq : List Entry) (s : State) : State × Except ErrorKind Bytes :=
  match esizeOfInt esize.toInt with
  | none => (s, .error .invalidElementSize)
  | some n =>
    let t := s.withEsz n
    if seq.any hasNonIntegerKey then (t, .error .nonIntegerKey)
    else marshalWalk t.esz (sortByPosition seq) t

end Sys2Proof.Machine
end

