-- ==== Sys2Proof/Machine/Value.lean ====
section
/-! DEFINITION. The commands `VALUE.B` and `VALUE.S` (42_commands.md R141, R142), and what a structured-sequence
command does once its starting checksum is known. -/

namespace Sys2Proof.Machine

/-- The tail of both `.S` commands (R142, R144): marshal, then extend from `c`; a marshaler's error is raised. -/
def checksumSeq (c : U32) (esize : I64) (seq : List Entry) (s : State) : State :=
  match marshalSeq esize seq s with
  | (t, .ok d) => (t.runEngine c d).respondChecksum
  | (t, .error k) => t.raise k (seqErrors esize seq)

/-- The tail of both `.B` commands (R141, R143). -/
def checksumBytes (c : U32) (data : Bytes) (s : State) : State :=
  (s.runEngine c (marshalBytes data)).respondChecksum

/-- `VALUE.B` (R141): the checksum of a byte string from 0. It always returns a checksum. -/
def execValueB (data : Bytes) (s : State) : Host.Outcome State Fault Refusal :=
  .next (checksumBytes 0 data s)

/-- `VALUE.S` (R142): the checksum of a structured sequence from 0. -/
def execValueS (esize : I64) (seq : List Entry) (s : State) : Host.Outcome State Fault Refusal :=
  .next (checksumSeq 0 esize seq s)

end Sys2Proof.Machine
end

