-- ==== Sys2Proof/Machine/Extend.lean ====
section
/-! DEFINITION. The commands `EXTEND.B` and `EXTEND.S` (42_commands.md R143, R144): the prior checksum is checked
first (R145). -/

namespace Sys2Proof.Machine

/-- `EXTEND.B` (R143): fold a byte string into a prior checksum. -/
def execExtendB (data : Bytes) (prior : I64) (s : State) : Host.Outcome State Fault Refusal :=
  match checkPrior prior with
  | .error k => .next (s.raise k (priorErrors prior))
  | .ok c => .next (checksumBytes c data s)

/-- `EXTEND.S` (R144): fold a structured sequence into a prior checksum. -/
def execExtendS (esize : I64) (seq : List Entry) (prior : I64) (s : State) : Host.Outcome State Fault Refusal :=
  match checkPrior prior with
  | .error k => .next (s.raise k (priorErrors prior ++ seqErrors esize seq))
  | .ok c => .next (checksumSeq c esize seq s)

end Sys2Proof.Machine
end

