-- ==== Sys2Proof/Machine/Dispatch.lean ====
section
/-! DEFINITION. One arm per command (42_commands.md R140): the step's match on the command. -/

namespace Sys2Proof.Machine

def exec (i : Instr) (s : State) : Host.Outcome State Fault Refusal :=
  match i with
  | .valueB data => Sys2Proof.Machine.execValueB data s
  | .valueS esize seq => Sys2Proof.Machine.execValueS esize seq s
  | .extendB data prior => Sys2Proof.Machine.execExtendB data prior s
  | .extendS esize seq prior => Sys2Proof.Machine.execExtendS esize seq prior s

end Sys2Proof.Machine
end

