-- ==== Sys2Proof/Machine/Step.lean ====
section
/-! DEFINITION. One step of one instance (42_commands.md R140; 10_state.md R27; 70_reset_and_hazards.md R181,
R184). -/

namespace Sys2Proof.Machine

/-- One step. IDLE: the Host's next event happens; an issued frame is decoded, accepted and answered at once (R140), a
frame that spells no command is refused (30_encoding.md R71). BUSY: reset abandons the command (R181); any other event
waits (R184), and the instance answers its outstanding command, or delivers the response it has. -/
def step (s : State) : Host.Outcome State Fault Refusal :=
  match s.phase with
  | .idle => match s.issued with
    | [] => .next s
    | .reset :: rest => .next (s.resetInstance rest)
    | .issue f :: rest => match decode s.params f with
      | .error r => .refused (.frame r)
      | .ok i => exec i (s.accept i rest)
    | .accept f :: rest => match decode s.params f with
      | .error r => .refused (.frame r)
      | .ok i => .next (s.accept i rest)
  | .busy => match s.issued.head? with
    | some .reset => .next (s.resetInstance s.issued.tail)
    | _ => match s.pending, s.outstanding with
      | some _, _ => .next s.deliver
      | none, some i => exec i s
      | none, none => .fault .busyWithoutCommand

/-- The host's probe: `s` with the frame of a table word issued next, on an instance that can accept it (log entry
11). The instance holds no command, so the very next step decodes and runs that one. -/
def State.withFetchWord (s : State) (nbits w : Nat) : State :=
  { s with phase := .idle, outstanding := none, pending := none,
           issued := .issue (tableFrame nbits w) :: s.issued }

end Sys2Proof.Machine
end

