-- ==== Sys2Proof/Machine/System.lean ====
section
/-! DEFINITION. Several core instances (60_exceptions.md R177): they share no state and send each other nothing. -/

namespace Sys2Proof.Machine

/-- The instance at place `k` takes one step; the others keep their states. A place with no instance does nothing. -/
def stepInstance (k : Nat) (sys : List State) : Host.Outcome (List State) Fault Refusal :=
  match sys[k]? with
  | none => .next sys
  | some s => match step s with
    | .next t => .next (sys.set k t)
    | .fault r => .fault r
    | .refused r => .refused r

/-- An interleaving: each number names the instance that steps next (20_memory.md R51, log entry 18). -/
def runSchedule : List Nat → List State → Host.Outcome (List State) Fault Refusal
  | [], sys => .next sys
  | k :: ks, sys => match stepInstance k sys with
    | .next t => runSchedule ks t
    | .fault r => .fault r
    | .refused r => .refused r

/-- All instances start as reset leaves them (R177). -/
def resetSystem (n : Nat) : List State := List.replicate n State.reset

end Sys2Proof.Machine
end

