-- ==== Sys2Proof/Machine/HostProgram.lean ====
section
/-! DEFINITION. Host programs (30_encoding.md R74 to R76; 70_reset_and_hazards.md R184, R185): lines that issue a
command to one instance, wait for the response and bind it to a name. -/

namespace Sys2Proof.Machine

/-- An operand `<prior>`: a literal, or a Host name bound to a response (R74, R75). -/
inductive PriorOperand where
  | lit (v : I64)
  | name (h : Nat)  -- hN, the name with number N
  deriving DecidableEq, Repr

/-- A command as a Host program writes it (R74). -/
inductive HostCommand where
  | valueB  (data : Bytes)
  | valueS  (esize : I64) (seq : List Entry)
  | extendB (data : Bytes) (prior : PriorOperand)
  | extendS (esize : I64) (seq : List Entry) (prior : PriorOperand)
  | chainB  (prior : PriorOperand) (first : Bytes) (rest : List Bytes)  -- CHAIN.B, K ≥ 1 byte strings (R76)
  deriving DecidableEq, Repr

/-- A line `hN = <command>` (R75); without a name the response is not bound. -/
structure HostLine where
  bind : Option Nat
  cmd  : HostCommand
  deriving DecidableEq, Repr

/-- Why a Host program stops. -/
inductive HostStop where
  | illegalPrior (h : Nat)        -- hN is used as `<prior>` and is not bound to ok(c) (R75, R185)
  | noResponse                    -- the instance answered nothing
  | coreFault (r : Fault)         -- the instance stopped with a fault
  | coreRefused (r : Refusal)     -- the Host issued a frame that spells no command (R71)
  deriving DecidableEq, Repr

/-- The Host's names and the responses bound to them; they are the Host's, not the block's (10_state.md R30). -/
abbrev Bindings := List (Nat × Response)

/-- A checksum as a prior operand: the same number, as an `i64` (R75). -/
def priorOfChecksum (c : U32) : I64 := c.setWidth 64

/-- The integer that a `<prior>` operand stands for. An error response carries no checksum, so nothing can be chained
from it (R75, R185). -/
def resolvePrior (b : Bindings) : PriorOperand → Except HostStop I64
  | .lit v => .ok v
  | .name h => match b.lookup h with
    | some (.ok c) => .ok (priorOfChecksum c)
    | _ => .error (.illegalPrior h)

/-- A step that the Host waits for. -/
def hostStep (s : State) : Except HostStop State := match step s with
  | .next t => .ok t
  | .fault r => .error (.coreFault r)
  | .refused r => .error (.coreRefused r)

/-- The Host waits until the instance is IDLE: a BUSY one first answers the command it holds (R184). -/
def waitIdle (s : State) : Except HostStop State := match s.phase with
  | .idle => .ok s
  | .busy => hostStep s

/-- The last response the Host received. -/
def lastResponse (s : State) : Except HostStop (Response × State) := match s.delivered.getLast? with
  | some r => .ok (r, s)
  | none => .error .noResponse

/-- The Host issues one command to an instance, once that is IDLE, and waits for its response (R184). -/
def issueCommand (i : Instr) (s : State) : Except HostStop (Response × State) :=
  (waitIdle s).bind fun t =>
    (hostStep { t with issued := .issue (encode i) :: t.issued }).bind lastResponse

/-- `CHAIN.B` (R76): one `EXTEND.B` after another, each on the checksum of the one before; an error stops it. -/
def issueChain : Bytes → List Bytes → I64 → State → Except HostStop (Response × State)
  | d, [], prior, s => issueCommand (.extendB d prior) s
  | d, d' :: ds, prior, s =>
    match issueCommand (.extendB d prior) s with
    | .error e => .error e
    | .ok (.err k, t) => .ok (.err k, t)
    | .ok (.ok c, t) => issueChain d' ds (priorOfChecksum c) t

/-- One command of a Host program, its names replaced by what they are bound to. -/
def issueHostCommand (b : Bindings) (s : State) : HostCommand → Except HostStop (Response × State)
  | .valueB data => issueCommand (.valueB data) s
  | .valueS esize seq => issueCommand (.valueS esize seq) s
  | .extendB data p => (resolvePrior b p).bind fun v => issueCommand (.extendB data v) s
  | .extendS esize seq p => (resolvePrior b p).bind fun v => issueCommand (.extendS esize seq v) s
  | .chainB p d ds => (resolvePrior b p).bind fun v => issueChain d ds v s

/-- A name is bound to a response; a later binding of the same name hides an earlier one. -/
def bindName (name : Option Nat) (r : Response) (b : Bindings) : Bindings := match name with
  | some h => (h, r) :: b
  | none => b

/-- A Host program, line by line (R75, R184). -/
def runHostProgram : List HostLine → Bindings → State → Except HostStop (Bindings × State)
  | [], b, s => .ok (b, s)
  | l :: ls, b, s =>
    match issueHostCommand b s l.cmd with
    | .error e => .error e
    | .ok (r, t) => runHostProgram ls (bindName l.bind r b) t

end Sys2Proof.Machine
end

