-- ==== Sys2Proof/Safety.lean ====
section
/-! DEFINITION. What claims say of states and runs: the invariant, and a Host that keeps its obligations. -/

namespace Sys2Proof.Machine

/-! ### The response of a command, from the rules alone -/

/-- The byte stream of a sequence (41_marshaler.md R118, R127): each value's bytes, in ascending position order. -/
def sequenceBytes (n : ESize) (seq : List Entry) : Bytes :=
  (sortByPosition seq).flatMap fun e => encodeLE e.value n

/-- The error of a sequence in the canonical precedence (60_exceptions.md R169, steps 2 to 4). -/
def seqCanonicalError (esize : I64) (seq : List Entry) : Option ErrorKind :=
  match esizeOfInt esize.toInt with
  | none => some .invalidElementSize
  | some n =>
    if seq.any hasNonIntegerKey then some .nonIntegerKey
    else (sortByPosition seq).findSome? (entryError n)

/-- The error of a command in the canonical precedence (R169): the prior's first. -/
def canonicalError : Instr → Option ErrorKind
  | .valueB _ => none
  | .valueS esize seq => seqCanonicalError esize seq
  | .extendB _ prior => (priorErrors prior).head?
  | .extendS esize seq prior => (priorErrors prior).head?.or (seqCanonicalError esize seq)

/-- The checksum a command starts from (40_engine.md R86; 42_commands.md R145: bits 31 to 0 of a prior in range). -/
def startChecksum : Instr → U32
  | .valueB _ => 0
  | .valueS _ _ => 0
  | .extendB _ prior => prior.setWidth 32
  | .extendS _ _ prior => prior.setWidth 32

/-- The bytes a command folds in, where it is not an error. -/
def commandBytes : Instr → Bytes
  | .valueB data => data
  | .valueS esize seq => ((esizeOfInt esize.toInt).map fun n => sequenceBytes n seq).getD []
  | .extendB data _ => data
  | .extendS esize seq _ => ((esizeOfInt esize.toInt).map fun n => sequenceBytes n seq).getD []

/-- `STEP(cmd)` under `CANONICAL` (42_commands.md R140): a function of the command alone. -/
def commandResponse (i : Instr) : Response :=
  match canonicalError i with
  | some k => .err k
  | none => .ok (engineExtend (startChecksum i) (commandBytes i))

/-- The input of an EXTEND command: a byte string, or an element size and a sequence. -/
inductive Payload where
  | bytes (data : Bytes)
  | seq (esize : I64) (entries : List Entry)
  deriving DecidableEq, Repr

/-- The EXTEND command with that input and a prior (42_commands.md R149). -/
def Payload.extend : Payload → I64 → Instr
  | .bytes data, prior => .extendB data prior
  | .seq esize entries, prior => .extendS esize entries prior

/-! ### States and runs -/

/-- What every command does besides its response and its transient registers: the instance is IDLE and holds nothing,
one response was delivered, and the parameters and what the Host does next are unchanged. -/
structure Answers (s t : State) (r : Response) : Prop where
  phase       : t.phase = .idle
  outstanding : t.outstanding = none
  pending     : t.pending = none
  delivered   : t.delivered = s.delivered ++ [r]
  params      : t.params = s.params
  issued      : t.issued = s.issued

/-- The invariant of one instance: IDLE holds no command and no response, BUSY holds exactly one accepted command
(10_state.md R27), which is well-formed (42_commands.md R140); `EBUF` has its 8 bytes (R25); what is pending or was
delivered is a response the core may give (30_encoding.md R69). -/
structure State.Inv (s : State) : Prop where
  idleHoldsNothing  : s.phase = .idle → s.outstanding = none ∧ s.pending = none
  busyHoldsACommand : s.phase = .busy → ∃ i, s.outstanding = some i
  commandWellFormed : ∀ i, s.outstanding = some i → WellFormed s.params i = true
  ebufHasEightBytes : s.ebuf.length = 8
  pendingIsLegal    : ∀ r, s.pending = some r → r.fromCore = true
  deliveredIsLegal  : ∀ r, r ∈ s.delivered → r.fromCore = true

/-- The frame spells a command (30_encoding.md R71, R73). -/
def spellsCommand (p : Params) (f : Bytes) : Bool := (decode p f).isOk

/-- An event the Host may cause: any frame it issues spells a command (R71: "The Host must never issue them"). -/
def HostEvent.isLegal (p : Params) : HostEvent → Bool
  | .issue f => spellsCommand p f
  | .accept f => spellsCommand p f
  | .reset => true

/-- A Host that keeps its obligations: everything it will still do is legal. -/
def State.HostLegal (s : State) : Prop := ∀ e, e ∈ s.issued → e.isLegal s.params = true

/-- `s` answers `t` in `k` steps, each of them a next state. -/
inductive Steps : Nat → State → State → Prop where
  | refl (s : State) : Steps 0 s s
  | head {k : Nat} {s t u : State} : step s = .next t → Steps k t u → Steps (k + 1) s u

end Sys2Proof.Machine
end

