-- ==== Sys2Proof/Certificates/Slice0/Obligations.lean ====
section
/-! DEFINITION. The statements for the provers, in the order of the spec's files: engine, marshaler, commands,
errors, encoding, and the machine as a whole. -/

open Sys2Proof Sys2Proof.Machine

/-! ### The engine (40_engine.md) -/

/-- R81: the reflected polynomial is the bit reversal of the normal one. -/
def Obligations.ReflectedPolynomialIsBitReversal : Prop :=
  polyNormal = 0x1EDC6F41 ∧ polyReflected = 0x82F63B78 ∧
    ∀ i, i < 32 → polyReflected.getLsbD i = polyNormal.getLsbD (31 - i)

/-- R85 with the constants of R82 and the byte step of R84, which the spec takes from general knowledge (log entry 14):
the engine loads ACC inverted, folds the bytes in order and reads ACC out inverted; nothing else changes; an empty input
gives the checksum back, and 0xFFFFFFFF is a fixed point for zero bytes. -/
def Obligations.EngineFoldsBytesThroughAcc : Prop :=
  (∀ (s : State) (c : U32) (d : Bytes),
    s.runEngine c d = { s with acc := d.foldl byteStep (c ^^^ 0xFFFFFFFF) } ∧
    (s.runEngine c d).engineResult = d.foldl byteStep (c ^^^ 0xFFFFFFFF) ^^^ 0xFFFFFFFF ∧
    (s.runEngine c d).engineResult = engineExtend c d) ∧
  (∀ c : U32, engineExtend c [] = c) ∧
  (∀ k : Nat, engineExtend 0xFFFFFFFF (List.replicate k 0) = 0xFFFFFFFF) ∧
  engineExtend 0 [0x00] = 0x527D5351 ∧
  engineExtend 0 [0x31, 0x32, 0x33, 0x34, 0x35, 0x36, 0x37, 0x38, 0x39] = 0xE3069283

/-- R89: the bit-serial form equals the byte step, for every register and byte. -/
def Obligations.BitSerialEqualsByteStep : Prop :=
  ∀ (s : U32) (b : Byte), serialByte s b = byteStep s b

/-- R90: the table-driven form equals the byte step, with T[i] = BYTE_STEP(i, 0x00). -/
def Obligations.TableStepEqualsByteStep : Prop :=
  (∀ i : Byte, tableEntry i = byteStep (i.setWidth 32) 0) ∧
  ∀ (s : U32) (b : Byte),
    (s >>> 8) ^^^ tableEntry ((s ^^^ b.setWidth 32).setWidth 8) = byteStep s b

/-- R91: the table listed in the spec holds exactly the 256 entries T[i]. -/
def Obligations.TableContentsAreTheByteSteps : Prop :=
  crcTable.length = 256 ∧ (∀ i : Byte, crcTable[i.toNat]? = some (tableEntry i)) ∧
    crcTable[0]? = some 0 ∧ crcTable[128]? = some polyReflected ∧ crcTable[255]? = some 0xAD7D5351

/-- R93: an empty input leaves the checksum, so VALUE.B "" gives 0. -/
def Obligations.ExtendByNothingIsIdentity : Prop :=
  (∀ c : U32, engineExtend c [] = c) ∧
    ∀ s : State, ∃ t, exec (.valueB []) s = .next t ∧ Answers s t (.ok 0)

/-- R94: extending by a and then by b is extending by a ++ b. -/
def Obligations.ExtendComposes : Prop :=
  ∀ (c : U32) (a b : Bytes), engineExtend (engineExtend c a) b = engineExtend c (a ++ b)

/-- R95: any split into parts gives the checksum of the whole. -/
def Obligations.ExtendIgnoresChunkBoundaries : Prop :=
  ∀ (c : U32) (parts : List Bytes), parts.foldl engineExtend c = engineExtend c parts.flatten

/-- R96: for fixed data the map from prior to result is a bijection. -/
def Obligations.ExtendIsBijectiveInChecksum : Prop :=
  ∀ a : Bytes, Function.Bijective fun c : U32 => engineExtend c a

/-- R97: affine in the checksum. -/
def Obligations.ExtendIsAffineInChecksum : Prop :=
  ∀ (c1 c2 : U32) (a : Bytes),
    engineExtend c1 a ^^^ engineExtend c2 a = engineExtend (c1 ^^^ c2) a ^^^ engineExtend 0 a

/-- R98: affine in the data. -/
def Obligations.ExtendIsAffineInData : Prop :=
  ∀ a b : Bytes, a.length = b.length →
    engineExtend 0 (List.zipWith (· ^^^ ·) a b) =
      engineExtend 0 a ^^^ engineExtend 0 b ^^^ engineExtend 0 (List.replicate a.length 0)

/-- R99: appending a checksum in little-endian order yields a constant. -/
def Obligations.AppendedChecksumLeavesResidue : Prop :=
  ∀ (c : U32) (a : Bytes),
    engineExtend (engineExtend c a) (leBytes 4 (engineExtend c a).toNat) = 0x48674BC7

/-! ### The marshaler (41_marshaler.md) -/

/-- R112: an element size outside 1, 2, 4, 8 is an error whatever the sequence holds and whatever ERROR_SELECT is; it
is InvalidElementSize for the empty sequence, and wherever no other error applies. -/
def Obligations.ElementSizeMustBeOneTwoFourEight : Prop :=
  (∀ v : I64, esizeOfInt v.toInt = none ↔ v.toInt ≠ 1 ∧ v.toInt ≠ 2 ∧ v.toInt ≠ 4 ∧ v.toInt ≠ 8) ∧
  (∀ (v : I64) (n : ESize), esizeOfInt v.toInt = some n ↔ v.toInt = n.toNat) ∧
  (∀ (v : I64) (seq : List Entry) (s : State), esizeOfInt v.toInt = none →
    WellFormed s.params (.valueS v seq) = true →
    ∃ t k, exec (.valueS v seq) s = .next t ∧ Answers s t (.err k) ∧
      (seq = [] ∨ seqErrors v seq = [.invalidElementSize] → k = .invalidElementSize)) ∧
  ∀ (v prior : I64) (seq : List Entry) (s : State), esizeOfInt v.toInt = none →
    WellFormed s.params (.extendS v seq prior) = true → 0 ≤ prior.toInt → prior.toInt ≤ 0xFFFFFFFF →
    ∃ t k, exec (.extendS v seq prior) s = .next t ∧ Answers s t (.err k) ∧
      (seq = [] ∨ seqErrors v seq = [.invalidElementSize] → k = .invalidElementSize)

/-- R116: the bounds of each size, inclusive, and the error that carries the size. -/
def Obligations.ValueRangeOfEachElementSize : Prop :=
  (rangeLo .one = -128 ∧ rangeHi .one = 255 ∧ rangeLo .two = -32768 ∧ rangeHi .two = 65535 ∧
    rangeLo .four = -2147483648 ∧ rangeHi .four = 4294967295 ∧
    rangeLo .eight = -9223372036854775808 ∧ rangeHi .eight = 18446744073709551615) ∧
  (∀ n : ESize, rangeLo n = -(2 ^ (8 * n.toNat - 1)) ∧ rangeHi n = 2 ^ (8 * n.toNat) - 1) ∧
  (∀ (n : ESize) (k v : I64), 0 < k.toInt →
    (rangeLo n ≤ v.toInt ∧ v.toInt ≤ rangeHi n → entryError n ⟨.int k, .int v⟩ = none) ∧
    (v.toInt < rangeLo n ∨ rangeHi n < v.toInt →
      entryError n ⟨.int k, .int v⟩ = some (.valueOutOfRange n))) ∧
  (∀ n : ESize, ErrorKind.info (.valueOutOfRange n) = some (BitVec.ofNat 8 n.toNat))

/-- R117: no i64 fails the 8-byte range, and ValueOutOfRange(8) is never the response of any command. -/
def Obligations.EightByteRangeNeverFails : Prop :=
  (∀ v : I64, inRange .eight v.toInt = true) ∧
  ∀ (i : Instr) (s t : State), exec i s = .next t →
    t.delivered ≠ s.delivered ++ [.err (.valueOutOfRange .eight)]

/-- R118: values are encoded in ascending position order, and the order of the entries in a command has no effect at
all. -/
def Obligations.EntryOrderHasNoEffect : Prop :=
  (∀ (esize : I64) (seq : List Entry) (s m : State) (d : Bytes) (n : ESize),
    esizeOfInt esize.toInt = some n → marshalSeq esize seq s = (m, .ok d) →
    ∃ l : List Entry, l.Perm seq ∧ l.Pairwise (fun a b => a.position ≤ b.position) ∧
      d = l.flatMap fun e => encodeLE e.value n) ∧
  ∀ (esize prior : I64) (seq seq' : List Entry) (s : State), seq.Perm seq' → keysDistinct seq = true →
    exec (.valueS esize seq) s = exec (.valueS esize seq') s ∧
    exec (.extendS esize seq prior) s = exec (.extendS esize seq' prior) s

/-- R119 (the spec's decision D15, log entry 13): only the values in ascending position order matter, not which
positions they have: a missing position contributes nothing. (That commands which are not well-formed complete too is
the model's choice, log entry 8.) -/
def Obligations.GapsContributeNothing : Prop :=
  (∀ (n : ESize) (seq seq' : List Entry),
    (sortByPosition seq).map (·.val) = (sortByPosition seq').map (·.val) →
    sequenceBytes n seq = sequenceBytes n seq') ∧
  (∀ (esize : I64) (seq seq' : List Entry) (s : State),
    (sortByPosition seq).map (·.val) = (sortByPosition seq').map (·.val) →
    seqErrors esize seq = [] → seqErrors esize seq' = [] →
    (∃ t t' r, exec (.valueS esize seq) s = .next t ∧ exec (.valueS esize seq') s = .next t' ∧
      Answers s t r ∧ Answers s t' r) ∧
    ∀ prior : I64, ∃ t t' r, exec (.extendS esize seq prior) s = .next t ∧
      exec (.extendS esize seq' prior) s = .next t' ∧ Answers s t r ∧ Answers s t' r) ∧
  (∀ (n : ESize) (a b : TaggedValue),
    sequenceBytes n [⟨.int 1, a⟩, ⟨.int 3, b⟩] = sequenceBytes n [⟨.int 1, a⟩, ⟨.int 2, b⟩])

/-- R120: ENCODE_LE gives n bytes, byte i being bits 8i+7 to 8i of the value modulo 2^(8n); a sequence that is
encoded has only values that passed the range check. -/
def Obligations.EncodeLEGivesTheLowBytesInOrder : Prop :=
  (∀ (v : Int) (n : ESize), (encodeLE v n).length = n.toNat ∧
    ∀ i, i < n.toNat →
      (encodeLE v n)[i]? = some (BitVec.ofInt 8 ((v % 2 ^ (8 * n.toNat)) / 2 ^ (8 * i)))) ∧
  ∀ (esize : I64) (seq : List Entry) (s m : State) (d : Bytes) (n : ESize),
    esizeOfInt esize.toInt = some n → marshalSeq esize seq s = (m, .ok d) →
    ∀ e ∈ seq, ∃ v : I64, e.val = .int v ∧ rangeLo n ≤ v.toInt ∧ v.toInt ≤ rangeHi n

/-- R122: a negative value in range and the unsigned value 2^(8n) greater are both accepted and give the same bytes. -/
def Obligations.SignedAndUnsignedEncodeAlike : Prop :=
  (∀ (v : Int) (n : ESize), encodeLE v n = encodeLE (v + 2 ^ (8 * n.toNat)) n) ∧
  (∀ (v : Int) (n : ESize), rangeLo n ≤ v → v < 0 →
    inRange n v = true ∧ inRange n (v + 2 ^ (8 * n.toNat)) = true) ∧
  encodeLE (-1) .one = [0xFF] ∧ encodeLE 255 .one = [0xFF] ∧
  encodeLE (-32768) .two = [0x00, 0x80] ∧ encodeLE 32768 .two = [0x00, 0x80]

/-- R124 (its order of checks is the spec's decisions D13 and D14, log entry 15): MARSHAL_SEQ gives the first error
of the canonical order, or every value's bytes in ascending position order. -/
def Obligations.MarshalSeqChecksThenEncodes : Prop :=
  (∀ (esize : I64) (seq : List Entry) (s : State) (k : ErrorKind),
    seqCanonicalError esize seq = some k → (marshalSeq esize seq s).2 = .error k) ∧
  (∀ (esize : I64) (seq : List Entry) (s : State), seqCanonicalError esize seq = none →
    ∃ n, esizeOfInt esize.toInt = some n ∧ (marshalSeq esize seq s).2 = .ok (sequenceBytes n seq)) ∧
  (∀ s : State, (marshalSeq 2 [⟨.int 1, .int 0x0102⟩, ⟨.int 2, .int 0x0304⟩] s).2
    = .ok [0x02, 0x01, 0x04, 0x03])

/-- What MARSHAL_SEQ leaves in the transient registers: ESZ holds the element size (10_state.md R26), EBUF[0..n-1] the
bytes of the last value (R121). That both keep these contents, and that the rest of EBUF is as before, is the model's
choice (log entry 12); every other field is as before. -/
def Obligations.MarshalSeqLeavesLastValueInEbuf : Prop :=
  ∀ (esize : I64) (seq : List Entry) (s t : State) (d : Bytes) (n : ESize) (e : Entry),
    esizeOfInt esize.toInt = some n → marshalSeq esize seq s = (t, .ok d) →
    (sortByPosition seq).getLast? = some e →
    t = { s with esz := n, ebuf := encodeLE e.value n ++ s.ebuf.drop n.toNat }

/-- R127: a successful MARSHAL_SEQ returns n bytes for each entry, the k-th value (from 0 here) at n·k. -/
def Obligations.MarshalSeqOutputLength : Prop :=
  ∀ (esize : I64) (seq : List Entry) (s t : State) (d : Bytes) (n : ESize),
    esizeOfInt esize.toInt = some n → marshalSeq esize seq s = (t, .ok d) →
    d.length = n.toNat * seq.length ∧
    ∀ (k : Nat) (e : Entry), (sortByPosition seq)[k]? = some e →
      (d.drop (n.toNat * k)).take n.toNat = encodeLE e.value n

/-- R126: an empty sequence with a legal element size leaves the starting checksum. -/
def Obligations.EmptySequenceLeavesTheChecksum : Prop :=
  ∀ (esize prior : I64) (n : ESize) (s : State), esizeOfInt esize.toInt = some n →
    (marshalSeq esize [] s).2 = .ok [] ∧
    (∃ t, exec (.valueS esize []) s = .next t ∧ Answers s t (.ok 0)) ∧
    (0 ≤ prior.toInt → prior.toInt ≤ 0xFFFFFFFF →
      ∃ t, exec (.extendS esize [] prior) s = .next t ∧ Answers s t (.ok (prior.setWidth 32)))

/-- R128: the streaming marshaler and the whole-sequence one give the same response, and leave the same state but for
what an error leaves in ACC. (What the transient registers hold after a command is the model's choice, log entry
12.) -/
def Obligations.StreamingEqualsWholeSequence : Prop :=
  ∀ (c : U32) (esize : I64) (seq : List Entry) (s : State),
    (streamSeq c esize seq s).withAcc 0 = (checksumSeq c esize seq s).withAcc 0 ∧
    (seqCanonicalError esize seq = none → streamSeq c esize seq s = checksumSeq c esize seq s)

/-- R129: the structured path and the byte-string path give the same response for equivalent data. -/
def Obligations.StructuredAndByteStringPathsAgree : Prop :=
  ∀ (esize : I64) (seq : List Entry) (s m : State) (d : Bytes), marshalSeq esize seq s = (m, .ok d) →
    WellFormed s.params (.valueS esize seq) = true → WellFormed s.params (.valueB d) = true →
    (∃ t u, exec (.valueS esize seq) s = .next t ∧ exec (.valueB d) s = .next u ∧
      Answers s t (.ok (engineExtend 0 d)) ∧ Answers s u (.ok (engineExtend 0 d))) ∧
    ∀ prior : I64, ∃ t u r, exec (.extendS esize seq prior) s = .next t ∧
      exec (.extendB d prior) s = .next u ∧ Answers s t r ∧ Answers s u r

/-! ### The four commands (42_commands.md) -/

/-- R141: VALUE.B always returns the checksum from 0. -/
def Obligations.ValueBReturnsTheChecksum : Prop :=
  (∀ (data : Bytes) (s : State), WellFormed s.params (.valueB data) = true →
    ∃ t, exec (.valueB data) s = .next t ∧ Answers s t (.ok (engineExtend 0 data))) ∧
  (∀ data : Bytes, encode (.valueB data) = [0, 0, 0, 0] ++ leBytes 8 data.length ++ data) ∧
  (∀ c : U32, Response.status (.ok c) = 0x00) ∧
  engineExtend 0 [] = 0 ∧
  engineExtend 0 [0x31, 0x32, 0x33, 0x34, 0x35, 0x36, 0x37, 0x38, 0x39] = 0xE3069283

/-- R142: VALUE.S returns the checksum of the marshaled bytes from 0, or the error of R124, whose order is the spec's
decisions D13 and D14 (log entry 15). What ACC, ESZ, EBUF and the counter of free choices hold afterwards, and
that commands which are not well-formed complete too, are the model's choices (log entries 5, 12 and 8). -/
def Obligations.ValueSReturnsTheChecksumOrTheError : Prop :=
  (∀ (esize : I64) (seq : List Entry) (s : State) (n : ESize), esizeOfInt esize.toInt = some n →
    seqCanonicalError esize seq = none →
    ∃ t, exec (.valueS esize seq) s = .next t ∧
      Answers s t (.ok (engineExtend 0 (sequenceBytes n seq))) ∧
      t.acc = foldBytes 0xFFFFFFFF (sequenceBytes n seq) ∧ t.esz = n ∧ t.choices = s.choices ∧
      t.ebuf.drop n.toNat = s.ebuf.drop n.toNat) ∧
  (∀ (esize : I64) (seq : List Entry) (s : State) (k : ErrorKind), s.params.errorSelect = .canonical →
    seqCanonicalError esize seq = some k →
    ∃ t, exec (.valueS esize seq) s = .next t ∧ Answers s t (.err k) ∧
      t.acc = s.acc ∧ t.choices = s.choices) ∧
  (∀ (esize : I64) (seq : List Entry), encode (.valueS esize seq) =
    [1, 0, 0, 0] ++ leBytes 8 esize.toNat ++ leBytes 8 seq.length ++ seq.flatMap encodeEntry) ∧
  (∀ c, Response.status (.ok c) = 0x00) ∧ (∀ k, Response.status (.err k) = k.code) ∧
  commandResponse (.valueS 2 [⟨.int 1, .int 0x0102⟩, ⟨.int 2, .int 0x0304⟩]) = .ok 0x0F9B6810 ∧
  commandResponse (.valueS 2 [⟨.int 1, .int 0x0304⟩, ⟨.int 2, .int 0x0102⟩]) = .ok 0x0C4509AA ∧
  commandResponse (.valueS 3 [⟨.int 1, .int 5⟩]) = .err .invalidElementSize ∧
  commandResponse (.valueS 1 [⟨.int 0, .int 5⟩]) = .err .nonPositiveKey ∧
  commandResponse (.valueS 1 [⟨.int 1, .int 255⟩]) = .ok (engineExtend 0 [0xFF]) ∧
  commandResponse (.valueS 1 [⟨.int 1, .int 256⟩]) = .err (.valueOutOfRange .one) ∧
  commandResponse (.valueS 1 [⟨.int 1, .int (-129)⟩]) = .err (.valueOutOfRange .one)

/-- R143: EXTEND.B folds from a prior in [0, 0xFFFFFFFF]; any other prior is ChecksumOutOfRange under either
ERROR_SELECT. -/
def Obligations.ExtendBReturnsTheChecksumOrTheError : Prop :=
  (∀ (data : Bytes) (prior : I64) (s : State), WellFormed s.params (.extendB data prior) = true →
    0 ≤ prior.toInt → prior.toInt ≤ 0xFFFFFFFF →
    ∃ t, exec (.extendB data prior) s = .next t ∧
      Answers s t (.ok (engineExtend (prior.setWidth 32) data))) ∧
  (∀ (data : Bytes) (prior : I64) (s : State), WellFormed s.params (.extendB data prior) = true →
    prior.toInt < 0 ∨ 0xFFFFFFFF < prior.toInt →
    ∃ t, exec (.extendB data prior) s = .next t ∧ Answers s t (.err .checksumOutOfRange)) ∧
  (∀ (data : Bytes) (s : State), exec (.extendB data 0) s = exec (.valueB data) s) ∧
  (∀ (data : Bytes) (prior : I64), encode (.extendB data prior) =
    [2, 0, 0, 0] ++ leBytes 8 prior.toNat ++ leBytes 8 data.length ++ data) ∧
  (∀ c : U32, Response.status (.ok c) = 0x00) ∧ Response.status (.err .checksumOutOfRange) = 0x06 ∧
  (∀ prior : I64, engineExtend (prior.setWidth 32) [] = prior.setWidth 32) ∧
  commandResponse (.extendB [0x35, 0x36, 0x37, 0x38, 0x39] 0xF63AF4EE) = .ok 0xE3069283

/-- R144: EXTEND.S checks the prior first, then marshals, then folds; the order of the marshaler's errors is the spec's
decisions D13 and D14 (log entry 15), and what the transient registers and the counter of free choices hold afterwards,
and that commands which are not well-formed complete too, are the model's choices (log entries 5, 12 and 8). -/
def Obligations.ExtendSReturnsTheChecksumOrTheError : Prop :=
  (∀ (esize prior : I64) (seq : List Entry) (s : State), prior.toInt < 0 ∨ 0xFFFFFFFF < prior.toInt →
    exec (.extendS esize seq prior) s = .next
      { s with
        phase := .idle, outstanding := none, pending := none,
        delivered := s.delivered ++ [.err .checksumOutOfRange] }) ∧
  (∀ (esize prior : I64) (seq : List Entry) (s : State) (n : ESize),
    0 ≤ prior.toInt → prior.toInt ≤ 0xFFFFFFFF → esizeOfInt esize.toInt = some n →
    seqCanonicalError esize seq = none →
    ∃ t, exec (.extendS esize seq prior) s = .next t ∧
      Answers s t (.ok (engineExtend (prior.setWidth 32) (sequenceBytes n seq))) ∧
      t.acc = foldBytes (~~~(prior.setWidth 32)) (sequenceBytes n seq) ∧ t.esz = n ∧
      t.choices = s.choices ∧ t.ebuf.drop n.toNat = s.ebuf.drop n.toNat) ∧
  (∀ (esize prior : I64) (seq : List Entry) (s : State) (k : ErrorKind),
    0 ≤ prior.toInt → prior.toInt ≤ 0xFFFFFFFF → s.params.errorSelect = .canonical →
    seqCanonicalError esize seq = some k →
    ∃ t, exec (.extendS esize seq prior) s = .next t ∧ Answers s t (.err k) ∧
      t.acc = s.acc ∧ t.choices = s.choices) ∧
  (∀ (esize prior : I64) (seq : List Entry), encode (.extendS esize seq prior) =
    [3, 0, 0, 0] ++ leBytes 8 esize.toNat ++ leBytes 8 prior.toNat ++ leBytes 8 seq.length ++
      seq.flatMap encodeEntry) ∧
  (∀ c, Response.status (.ok c) = 0x00) ∧ (∀ k, Response.status (.err k) = k.code) ∧
  commandResponse (.extendS 1 [⟨.int 1, .int 255⟩, ⟨.int 2, .int (-1)⟩] 0xE3069283) = .ok 0x43483D86

/-- The whole next state of the byte-string commands: ACC holds the folded register, a wrong prior changes no transient
register, and nothing else changes. What a command leaves in ACC, EBUF and ESZ, and that a command with too much data
completes too, are the model's choices (log entries 12 and 8). -/
def Obligations.ByteStringCommandsAsWholeNextStates : Prop :=
  (∀ (data : Bytes) (s : State), exec (.valueB data) s = .next
    { s with
      phase := .idle, outstanding := none, pending := none, acc := foldBytes 0xFFFFFFFF data,
      delivered := s.delivered ++ [.ok (engineExtend 0 data)] }) ∧
  (∀ (data : Bytes) (prior : I64) (s : State), 0 ≤ prior.toInt → prior.toInt ≤ 0xFFFFFFFF →
    exec (.extendB data prior) s = .next
      { s with
        phase := .idle, outstanding := none, pending := none,
        acc := foldBytes (~~~(prior.setWidth 32)) data,
        delivered := s.delivered ++ [.ok (engineExtend (prior.setWidth 32) data)] }) ∧
  ∀ (data : Bytes) (prior : I64) (s : State), prior.toInt < 0 ∨ 0xFFFFFFFF < prior.toInt →
    exec (.extendB data prior) s = .next
      { s with
        phase := .idle, outstanding := none, pending := none,
        delivered := s.delivered ++ [.err .checksumOutOfRange] }

/-- R145 (in the core by the spec's decision D12): CHECK_PRIOR returns the same number as a u32, or
ChecksumOutOfRange; a checksum passed on is legal. -/
def Obligations.CheckPriorKeepsTheNumber : Prop :=
  (∀ prior : I64, 0 ≤ prior.toInt → prior.toInt ≤ 0xFFFFFFFF →
    ∃ c : U32, checkPrior prior = .ok c ∧ (c.toNat : Int) = prior.toInt ∧ c = prior.setWidth 32) ∧
  (∀ prior : I64, prior.toInt < 0 ∨ 0xFFFFFFFF < prior.toInt →
    checkPrior prior = .error .checksumOutOfRange) ∧
  (∀ c : U32, checkPrior (priorOfChecksum c) = .ok c)

/-- R146: VALUE is EXTEND from 0, as whole next states. -/
def Obligations.ValueIsExtendFromZero : Prop :=
  (∀ (data : Bytes) (s : State), exec (.valueB data) s = exec (.extendB data 0) s) ∧
  ∀ (esize : I64) (seq : List Entry) (s : State), exec (.valueS esize seq) s = exec (.extendS esize seq 0) s

/-- R147: every well-formed command, in every state, completes with exactly one response: it never faults and is never
refused. -/
def Obligations.EveryCommandGetsExactlyOneResponse : Prop :=
  ∀ (i : Instr) (s : State), WellFormed s.params i = true → ∃ t r, exec i s = .next t ∧ Answers s t r

/-- R149: an EXTEND whose prior is the checksum of the EXTEND before it gives the checksum of the concatenation, for
byte strings and sequences in either place. (That commands which are not well-formed complete too is the model's choice,
log entry 8.) -/
def Obligations.ChainedCommandsChecksumTheConcatenation : Prop :=
  ∀ (x y : Payload) (p : I64) (s t : State) (c1 : U32),
    exec (x.extend p) s = .next t → t.delivered = s.delivered ++ [.ok c1] →
    canonicalError (y.extend (priorOfChecksum c1)) = none →
    ∃ u v c2, exec (y.extend (priorOfChecksum c1)) t = .next u ∧ Answers t u (.ok c2) ∧
      exec (.extendB (commandBytes (x.extend p) ++ commandBytes (y.extend (priorOfChecksum c1))) p) s = .next v ∧
      Answers s v (.ok c2)

/-! ### What commands read and write (10_state.md) -/

/-- R28: the response depends on the command alone, not on anything an earlier command left: under CANONICAL in every
two states; a checksum under either setting; an error under ANY_APPLICABLE on the free choice besides (log entry 5).
(That commands which are not well-formed complete too is the model's choice, log entry 8.) -/
def Obligations.ResponseDependsOnTheCommandAlone : Prop :=
  ∀ (i : Instr) (s s' : State), ∃ t t' r r',
    exec i s = .next t ∧ exec i s' = .next t' ∧ Answers s t r ∧ Answers s' t' r' ∧
    (s.params.errorSelect = .canonical → s'.params.errorSelect = .canonical → r = r') ∧
    (∀ c, r = .ok c ↔ r' = .ok c) ∧
    (s.params.errorSelect = s'.params.errorSelect → s.choices = s'.choices → r = r')

/-- The frame of every command: what it leaves unchanged besides the fields of `Answers`. A byte-string command leaves
EBUF and ESZ; a sequence command leaves EBUF above its element size, all of EBUF and ESZ where the size is illegal; a
command that raises an error leaves ACC; CANONICAL leaves the counter of free choices. What the transient registers ACC,
EBUF and ESZ keep is the model's choice (log entry 12), and so is the counter of free choices (log entry 5). -/
def Obligations.CommandsLeaveEverythingElseUnchanged : Prop :=
  ∀ (i : Instr) (s t : State), exec i s = .next t →
    t.params = s.params ∧ t.issued = s.issued ∧
    (s.params.errorSelect = .canonical → t.choices = s.choices) ∧
    ((∃ k, t.delivered = s.delivered ++ [.err k]) → t.acc = s.acc) ∧
    ((∃ c, t.delivered = s.delivered ++ [.ok c]) → t.choices = s.choices) ∧
    (match i with
      | .valueB _ => t.ebuf = s.ebuf ∧ t.esz = s.esz
      | .extendB _ _ => t.ebuf = s.ebuf ∧ t.esz = s.esz
      | .valueS esize _ => match esizeOfInt esize.toInt with
        | none => t.ebuf = s.ebuf ∧ t.esz = s.esz
        | some n => t.ebuf.drop n.toNat = s.ebuf.drop n.toNat ∧ t.esz = n
      | .extendS esize _ prior => match checkPrior prior, esizeOfInt esize.toInt with
        | .ok _, some n => t.ebuf.drop n.toNat = s.ebuf.drop n.toNat ∧ t.esz = n
        | _, _ => t.ebuf = s.ebuf ∧ t.esz = s.esz)

/-! ### Errors (60_exceptions.md) -/

/-- R167: the core never raises BadSignature, code 0x07; more, every STATUS it produces is 0x00 to 0x06. -/
def Obligations.CoreNeverRaisesBadSignature : Prop :=
  ErrorKind.badSignature.code = 0x07 ∧
  ∀ (i : Instr) (s t : State) (r : Response), exec i s = .next t → Answers s t r →
    r ≠ .err .badSignature ∧ r.status.toNat ≤ 6 ∧ r.fromCore = true

/-- R168: the response is an error exactly where some error applies, whatever ERROR_SELECT is. -/
def Obligations.ErrorExactlyWhereSomeErrorApplies : Prop :=
  (∀ (i : Instr) (s t : State) (r : Response), exec i s = .next t → Answers s t r →
    ((∃ k, r = .err k) ↔ applicable i ≠ [])) ∧
  (∀ (e p : I64) (q : List Entry), ∀ k, k ∈ applicable (.extendS e q p) ↔
    k = .checksumOutOfRange ∧ (p.toInt < 0 ∨ 0xFFFFFFFF < p.toInt) ∨
    k = .invalidElementSize ∧ (e.toInt ≠ 1 ∧ e.toInt ≠ 2 ∧ e.toInt ≠ 4 ∧ e.toInt ≠ 8) ∨
    k = .nonIntegerKey ∧ (∃ x ∈ q, x.key = .nonint) ∨
    k = .nonPositiveKey ∧ (∃ x ∈ q, ∃ v : I64, x.key = .int v ∧ v.toInt ≤ 0) ∨
    k = .nonIntegerValue ∧ (∃ x ∈ q, x.val = .nonint) ∨
    ∃ n : ESize, k = .valueOutOfRange n ∧ e.toInt = n.toNat ∧
      ∃ x ∈ q, ∃ v : I64, x.val = .int v ∧ (v.toInt < rangeLo n ∨ rangeHi n < v.toInt)) ∧
  (∀ (e : I64) (q : List Entry), applicable (.valueS e q) = applicable (.extendS e q 0)) ∧
  (∀ (d : Bytes) (p : I64) (k : ErrorKind), k ∈ applicable (.extendB d p) ↔
    k = .checksumOutOfRange ∧ (p.toInt < 0 ∨ 0xFFFFFFFF < p.toInt)) ∧
  (∀ d : Bytes, applicable (.valueB d) = [])

/-- R169 (the spec's decisions D13 and D14, log entry 15): under CANONICAL the response is the first error in the
canonical order, or the checksum. (That commands which are not well-formed complete too is the model's choice, log
entry 8.) -/
def Obligations.CanonicalPrecedenceOfErrors : Prop :=
  (∀ (i : Instr) (s : State), s.params.errorSelect = .canonical →
    ∃ t, exec i s = .next t ∧ Answers s t (commandResponse i)) ∧
  (∀ (i : Instr) (k : ErrorKind), canonicalError i = some k → k ∈ applicable i) ∧
  (∀ (esize : I64) (n : ESize) (seq : List Entry), esizeOfInt esize.toInt = some n →
    (∀ e ∈ seq, e.key ≠ .nonint) → (∃ e ∈ seq, hasNonPositiveKey e = true) →
    canonicalError (.valueS esize seq) = some .nonPositiveKey ∧
    ∀ prior : I64, 0 ≤ prior.toInt → prior.toInt ≤ 0xFFFFFFFF →
      canonicalError (.extendS esize seq prior) = some .nonPositiveKey)

/-- R170 (the spec's decision D13, log entry 5): under ANY_APPLICABLE the kind reported is some applicable one, the
prior's always first; a checksum is the same under both settings. (That commands which are not well-formed complete too
is the model's choice, log entry 8.) -/
def Obligations.AnyApplicableReportsAnApplicableError : Prop :=
  ∀ (i : Instr) (s : State), s.params.errorSelect = .anyApplicable →
    ∃ t r, exec i s = .next t ∧ Answers s t r ∧
      (∀ k, r = .err k → k ∈ applicable i ∧
        (.checksumOutOfRange ∈ applicable i → k = .checksumOutOfRange)) ∧
      (∀ c, r = .ok c ↔ commandResponse i = .ok c)

/-! ### Encoding (30_encoding.md) -/

/-- R62 (the spec's decision D8): the header word selects the command, and every other header is refused. -/
def Obligations.HeaderWordSelectsTheCommand : Prop :=
  (∀ (p : Params) (f : Bytes) (h : Nat), header? f = some h → 4 ≤ h →
    decode p f = .error .reservedHeaderBits) ∧
  (∀ (p : Params) (f : Bytes) (i : Instr), decode p f = .ok i → header? f = some (headerWord i)) ∧
  (∀ data, headerWord (.valueB data) = 0) ∧ (∀ esize seq, headerWord (.valueS esize seq) = 1) ∧
  (∀ data prior, headerWord (.extendB data prior) = 2) ∧
  (∀ esize seq prior, headerWord (.extendS esize seq prior) = 3)

/-- R63, R65, R67 (the spec's decision D9): the fields of each frame in order, and its length; the nine bytes of a
tagged value; an entry is its key and then its value. -/
def Obligations.FrameLayouts : Prop :=
  (∀ data : Bytes, encode (.valueB data) = leBytes 4 0 ++ (leBytes 8 data.length ++ data) ∧
    (encode (.valueB data)).length = 12 + data.length) ∧
  (∀ (esize : I64) (seq : List Entry),
    encode (.valueS esize seq) =
      leBytes 4 1 ++ (leBytes 8 esize.toNat ++ (leBytes 8 seq.length ++ seq.flatMap encodeEntry)) ∧
    (encode (.valueS esize seq)).length = 20 + 18 * seq.length) ∧
  (∀ (data : Bytes) (prior : I64),
    encode (.extendB data prior) = leBytes 4 2 ++ (leBytes 8 prior.toNat ++ (leBytes 8 data.length ++ data)) ∧
    (encode (.extendB data prior)).length = 20 + data.length) ∧
  (∀ (esize prior : I64) (seq : List Entry),
    encode (.extendS esize seq prior) = leBytes 4 3 ++ (leBytes 8 esize.toNat ++
      (leBytes 8 prior.toNat ++ (leBytes 8 seq.length ++ seq.flatMap encodeEntry))) ∧
    (encode (.extendS esize seq prior)).length = 28 + 18 * seq.length) ∧
  (∀ v : I64, encodeTV (.int v) = 0x00 :: leBytes 8 v.toNat ∧
    leBytes 8 v.toNat = (List.range 8).map fun i => v.extractLsb' (8 * i) 8) ∧
  encodeTV .nonint = [0x01, 0, 0, 0, 0, 0, 0, 0, 0] ∧
  (∀ e : Entry, encodeEntry e = encodeTV e.key ++ encodeTV e.val ∧
    (encodeTV e.key).length = 9 ∧ (encodeTV e.val).length = 9)

/-- R68, R69, R70 (the spec's decision D10): the frame of each response; it is read back, and its length follows from
its first byte. -/
def Obligations.ResponseFramesAreReadBack : Prop :=
  (∀ c : U32, (Response.ok c).frame = 0x00 :: leBytes 4 c.toNat) ∧
  (Response.err .invalidElementSize).frame = [0x01] ∧
  (Response.err .nonIntegerKey).frame = [0x02] ∧
  (Response.err .nonPositiveKey).frame = [0x03] ∧
  (Response.err .nonIntegerValue).frame = [0x04] ∧
  (∀ n : ESize, (Response.err (.valueOutOfRange n)).frame = [0x05, BitVec.ofNat 8 n.toNat]) ∧
  (Response.err .checksumOutOfRange).frame = [0x06] ∧
  (∀ r : Response, r.status = r.frame.headD 0xFF) ∧
  ∀ r : Response, r ≠ .err .badSignature →
    Response.ofFrame r.frame = some r ∧ responseLength? r.status = some r.frame.length

/-- R71, R72, R73 (the spec's decisions D11, D16): a sequence with two equal integer keys is refused, and non-integer
keys are never compared; the reason reported is the first in R71's order that applies; a reserved TAG, and a NONINT
value with a non-zero payload where every other tagged value is legal, are refused by name, whatever the bounds are and
whatever else the frame lacks or has too much of (what the reasons see of a short frame is log entry 7). -/
def Obligations.DuplicateIntegerKeysAreRefused : Prop :=
  (∀ (p : Params) (esize prior : I64) (seq : List Entry), seqFits p seq = true → keysDistinct seq = false →
    decode p (encode (.valueS esize seq)) = .error .duplicateKey ∧
    decode p (encode (.extendS esize seq prior)) = .error .duplicateKey) ∧
  (∀ seq : List Entry, (∀ e ∈ seq, e.key = .nonint) → keysDistinct seq = true) ∧
  (∀ (p : Params) (f : Bytes), (refusalList p f).map (·.1) =
    [.reservedHeaderBits, .reservedTag, .nonintPayload, .overMaxDataLen, .overMaxSeqLen, .truncated, .trailingBytes,
      .duplicateKey]) ∧
  (∀ (p : Params) (f : Bytes) (r : FrameRefusal), decode p f = .error r ↔
    ∃ before after, refusalList p f = before ++ (r, true) :: after ∧ ∀ x ∈ before, x.2 = false) ∧
  (∀ (p : Params) (esize prior : I64) (n : Nat) (fixed : Bytes) (before after : List TaggedValue) (tag : Byte)
      (payload rest : Bytes),
    fixed = leBytes 4 1 ++ leBytes 8 esize.toNat ∨
      fixed = leBytes 4 3 ++ leBytes 8 esize.toNat ++ leBytes 8 prior.toNat →
    n < 2 ^ 64 → before.length < 2 * n →
    (2 ≤ tag.toNat →
      decode p (fixed ++ leBytes 8 n ++ before.flatMap encodeTV ++ tag :: rest) = .error .reservedTag) ∧
    (payload.length = 8 → (∃ b ∈ payload, b ≠ 0) →
      decode p (fixed ++ leBytes 8 n ++ before.flatMap encodeTV ++ 0x01 :: payload ++ after.flatMap encodeTV) =
        .error .nonintPayload))

/-- R10 and R71 (the spec's decision D17): a command over either bound is refused. -/
def Obligations.CommandsOverTheBoundsAreRefused : Prop :=
  (∀ (p : Params) (data : Bytes) (prior : I64), p.maxDataLen < data.length → data.length < 2 ^ 64 →
    decode p (encode (.valueB data)) = .error .overMaxDataLen ∧
    decode p (encode (.extendB data prior)) = .error .overMaxDataLen) ∧
  (∀ (p : Params) (esize prior : I64) (seq : List Entry), p.maxSeqLen < seq.length → seq.length < 2 ^ 64 →
    decode p (encode (.valueS esize seq)) = .error .overMaxSeqLen ∧
    decode p (encode (.extendS esize seq prior)) = .error .overMaxSeqLen)

/-- R71 (the spec's decision D11; what it sees of a short frame is log entry 7): cutting a well-formed frame short
refuses it as TRUNCATED, a further byte as TRAILING_BYTES. -/
def Obligations.WrongFrameLengthsAreRefused : Prop :=
  ∀ (p : Params) (i : Instr), WellFormed p i = true →
    (∀ k, k < (encode i).length → decode p ((encode i).take k) = .error .truncated) ∧
    (∀ extra : Bytes, extra ≠ [] → decode p (encode i ++ extra) = .error .trailingBytes)

/-- R73 (the spec's decision D11): decoding the frame of a well-formed command gives the command, every operand at
every value. -/
def Obligations.DecodeUndoesEncode : Prop :=
  ∀ (p : Params) (i : Instr), WellFormed p i = true → decode p (encode i) = .ok i

/-- R73 (the spec's decision D11): a frame that decodes is the one frame of its command, and the command is
well-formed. -/
def Obligations.EncodeUndoesDecode : Prop :=
  ∀ (p : Params) (f : Bytes) (i : Instr), decode p f = .ok i → encode i = f ∧ WellFormed p i = true

/-- R77 and the frames of 95_test_vectors.md V23, written out byte by byte. -/
def Obligations.SampleFramesDecode : Prop :=
  decode Config.params [0, 0, 0, 0, 9, 0, 0, 0, 0, 0, 0, 0, 0x31, 0x32, 0x33, 0x34, 0x35, 0x36, 0x37, 0x38, 0x39]
    = .ok (.valueB [0x31, 0x32, 0x33, 0x34, 0x35, 0x36, 0x37, 0x38, 0x39]) ∧
  decode Config.params ([3, 0, 0, 0, 2, 0, 0, 0, 0, 0, 0, 0, 0, 0, 0, 0, 0, 0, 0, 0, 2, 0, 0, 0, 0, 0, 0, 0] ++
    [0, 1, 0, 0, 0, 0, 0, 0, 0, 0, 2, 1, 0, 0, 0, 0, 0, 0] ++ [0, 2, 0, 0, 0, 0, 0, 0, 0, 0, 4, 3, 0, 0, 0, 0, 0, 0])
    = .ok (.extendS 2 [⟨.int 1, .int 0x0102⟩, ⟨.int 2, .int 0x0304⟩] 0) ∧
  decode Config.params [2, 0, 0, 0, 255, 255, 255, 255, 255, 255, 255, 255, 0, 0, 0, 0, 0, 0, 0, 0]
    = .ok (.extendB [] (-1)) ∧
  decode Config.params [4, 0, 0, 0, 5, 0, 0, 0, 0, 0, 0, 0] = .error .reservedHeaderBits ∧
  decode Config.params [0, 0, 0, 0, 5, 0, 0, 0, 0, 0, 0, 0, 0x31, 0x32] = .error .truncated

/-! ### The machine -/

/-- R140, R27, R184 (the spec's decisions D1, D19; the accept event is log entry 2): a step of an IDLE instance with
an issued frame accepts the command it spells and runs it; an accepted frame only makes it BUSY; a BUSY instance runs
the command it holds, unless reset comes first. -/
def Obligations.StepRunsTheDecodedCommand : Prop :=
  (∀ (s : State) (f : Bytes) (rest : List HostEvent) (i : Instr), s.phase = .idle →
    s.issued = .issue f :: rest → decode s.params f = .ok i → step s = exec i (s.accept i rest)) ∧
  (∀ (s : State) (f : Bytes) (rest : List HostEvent) (i : Instr), s.phase = .idle →
    s.issued = .accept f :: rest → decode s.params f = .ok i → step s = .next (s.accept i rest)) ∧
  (∀ (s : State) (i : Instr), s.phase = .busy → s.pending = none → s.outstanding = some i →
    s.issued.head? ≠ some .reset → step s = exec i s)

/-- R71, R174 (the spec's decision D11, log entry 6): a frame that spells no command gets no step and no response:
the run is refused. -/
def Obligations.RefusedFramesGetNoStep : Prop :=
  ∀ (s : State) (f : Bytes) (rest : List HostEvent) (r : FrameRefusal), s.phase = .idle →
    s.issued = .issue f :: rest ∨ s.issued = .accept f :: rest → decode s.params f = .error r →
    step s = .refused (.frame r)

/-- R27, R140 (the accept event is the model's choice, log entry 2): accepting a command and answering it in the next
step is the atomic issue, unless reset falls between. -/
def Obligations.AcceptThenAnswerEqualsIssue : Prop :=
  ∀ (s : State) (f : Bytes) (rest : List HostEvent) (i : Instr), s.phase = .idle →
    decode s.params f = .ok i → rest.head? ≠ some .reset →
    ∃ u, step { s with issued := .accept f :: rest } = .next u ∧ u.phase = .busy ∧ u.outstanding = some i ∧
      step u = step { s with issued := .issue f :: rest }

/-- R181 (the spec's decision D26; what a reset event leaves to the Host is log entry 16): reset abandons the command
in flight and drops an undelivered response: none is delivered, then or later. -/
def Obligations.ResetAbandonsTheCommand : Prop :=
  ∀ (s : State) (rest : List HostEvent), s.issued = .reset :: rest →
    ∃ t, step s = .next t ∧ t.phase = .idle ∧ t.outstanding = none ∧ t.pending = none ∧
      t.delivered = s.delivered ∧ t.issued = rest ∧ t.params = s.params

/-- The state after reset (10_state.md R31, the spec's decision D26: IDLE, no command, no response) meets the
invariant. -/
def Obligations.InvariantHoldsAtReset : Prop :=
  State.reset.phase = .idle ∧ State.reset.outstanding = none ∧ State.reset.pending = none ∧
    State.reset.Inv

/-- Every step keeps the invariant, from every state that has it. -/
def Obligations.EveryStepKeepsTheInvariant : Prop :=
  ∀ s t : State, s.Inv → step s = .next t → t.Inv

/-- R140, R194 (completion is the spec's decision D28, log entry 20): with a Host that keeps its obligations no step
faults or is refused, and the Host stays so. -/
def Obligations.LegalHostIsNeverStopped : Prop :=
  ∀ s : State, s.Inv → s.HostLegal → ∃ t, step s = .next t ∧ t.Inv ∧ t.HostLegal

/-- Commands issued in a row are answered in order, one response each, every one the response that the command gets
alone (20_memory.md R51, CANONICAL). -/
def Obligations.IssuedCommandsAreAnsweredInOrder : Prop :=
  ∀ (cmds : List Instr) (s : State), s.phase = .idle → s.params.errorSelect = .canonical →
    (∀ i ∈ cmds, WellFormed s.params i = true) →
    s.issued = cmds.map (fun i => HostEvent.issue (encode i)) →
    ∃ t, Steps cmds.length s t ∧ t.phase = .idle ∧ t.issued = [] ∧
      t.delivered = s.delivered ++ cmds.map commandResponse

/-- R177 (the spec's decision D20; the schedule is log entry 18): instances share nothing: after any interleaving
each one is where its own steps alone lead. -/
def Obligations.InstancesDoNotInterfere : Prop :=
  (∀ (ks : List Nat) (sys sys' : List State), runSchedule ks sys = .next sys' →
    sys'.length = sys.length ∧
    ∀ (j : Nat) (s : State), sys[j]? = some s → ∃ u, sys'[j]? = some u ∧ Steps (ks.count j) s u) ∧
  (∀ n s, s ∈ resetSystem n → s.phase = .idle)

/-- R76 (the spec's own macro, decision D29; log entry 19): CHAIN.B gives the response of one EXTEND.B over the
concatenation. -/
def Obligations.ChainEqualsOneExtend : Prop :=
  ∀ (d : Bytes) (ds : List Bytes) (prior : I64) (s : State), s.phase = .idle →
    dataFits s.params (d ++ ds.flatten) = true →
    ∃ r t u, issueChain d ds prior s = .ok (r, t) ∧
      issueCommand (.extendB (d ++ ds.flatten) prior) s = .ok (r, u)

/-- R75, R185 (the spec's decision D29; log entry 19): a Host name that is not bound to ok(c) cannot be a prior: a
line that uses it so stops the program, whatever its command; a name that is bound stands for c. -/
def Obligations.OnlyChecksumsCanBeChained : Prop :=
  (∀ (b : Bindings) (h : Nat), (∀ c, b.lookup h ≠ some (.ok c)) →
    resolvePrior b (.name h) = .error (.illegalPrior h)) ∧
  (∀ (b : Bindings) (h : Nat) (c : U32), b.lookup h = some (.ok c) →
    ∃ v, resolvePrior b (.name h) = .ok v ∧ v.toInt = c.toNat) ∧
  (∀ (b : Bindings) (s : State) (data : Bytes) (h : Nat), (∀ c, b.lookup h ≠ some (.ok c)) →
    issueHostCommand b s (.extendB data (.name h)) = .error (.illegalPrior h)) ∧
  (∀ (b : Bindings) (s : State) (esize : I64) (seq : List Entry) (h : Nat), (∀ c, b.lookup h ≠ some (.ok c)) →
    issueHostCommand b s (.extendS esize seq (.name h)) = .error (.illegalPrior h)) ∧
  (∀ (b : Bindings) (s : State) (d : Bytes) (ds : List Bytes) (h : Nat), (∀ c, b.lookup h ≠ some (.ok c)) →
    issueHostCommand b s (.chainB (.name h) d ds) = .error (.illegalPrior h))
end

