-- ==== Sys2Proof/Laws/Bytes.lean ====
section
/-! SUPPORT. The byte-order helpers: lengths, and that each direction undoes the other. -/

namespace Sys2Proof

@[simp] theorem length_leBytes (n u : Nat) : (leBytes n u).length = n := by
  induction n generalizing u with
  | zero => rfl
  | succ n ih => simp [leBytes, ih]

theorem leNat_lt (bs : Bytes) : leNat bs < 256 ^ bs.length := by
  induction bs with
  | nil => simp [leNat]
  | cons b bs ih =>
    have hb := b.isLt
    simp only [leNat, List.length_cons, Nat.pow_succ]
    omega

theorem leNat_leBytes (n u : Nat) : leNat (leBytes n u) = u % 256 ^ n := by
  induction n generalizing u with
  | zero => simp [leBytes, leNat, Nat.mod_one]
  | succ n ih =>
    have h : (BitVec.ofNat 8 u).toNat = u % 256 := BitVec.toNat_ofNat ..
    rw [leBytes, leNat, ih, h, Nat.pow_succ', Nat.mod_mul]

theorem leNat_leBytes_of_lt {n u : Nat} (h : u < 256 ^ n) : leNat (leBytes n u) = u := by
  rw [leNat_leBytes, Nat.mod_eq_of_lt h]

theorem leBytes_leNat (bs : Bytes) : leBytes bs.length (leNat bs) = bs := by
  induction bs with
  | nil => rfl
  | cons b bs ih =>
    have hb := b.isLt
    simp only [List.length_cons, leBytes, leNat]
    have h1 : (b.toNat + 256 * leNat bs) / 256 = leNat bs := by omega
    rw [h1, ih]
    congr 1
    apply BitVec.eq_of_toNat_eq
    simp only [BitVec.toNat_ofNat]
    omega

/-- An `i64` operand is read back from its eight bytes. -/
theorem ofNat_leNat_leBytes (v : I64) : BitVec.ofNat 64 (leNat (leBytes 8 v.toNat)) = v := by
  rw [leNat_leBytes_of_lt (by simpa using v.isLt)]
  simp

theorem getElem?_leBytes {n i : Nat} (u : Nat) (h : i < n) :
    (leBytes n u)[i]? = some (BitVec.ofNat 8 (u / 256 ^ i)) := by
  induction n generalizing u i with
  | zero => omega
  | succ n ih =>
    cases i with
    | zero => simp [leBytes]
    | succ i =>
      simp only [leBytes, List.getElem?_cons_succ]
      rw [ih _ (by omega), Nat.div_div_eq_div_mul, Nat.pow_succ']

end Sys2Proof
end

