-- ==== Sys2Proof/Laws/Decode.lean ====
section
/-! SUPPORT. Frames: what the decoder's field readers give on an encoded command, and that tagged values and entries
are read back. -/

namespace Sys2Proof

/-! ### Fields -/

theorem field?_append (a b c : Bytes) : field? (a ++ (b ++ c)) a.length b.length = some b := by
  simp [field?]

theorem header?_append {h : Nat} (hh : h < 4) (rest : Bytes) : header? (leBytes 4 h ++ rest) = some h := by
  have := field?_append [] (leBytes 4 h) rest
  simp only [List.nil_append, List.length_nil, length_leBytes] at this
  rw [header?, this, Option.map_some, leNat_leBytes_of_lt (by omega)]

theorem i64At_append {a : Bytes} {off : Nat} (ha : a.length = off) (v : I64) (rest : Bytes) :
    i64At (a ++ (leBytes 8 v.toNat ++ rest)) off = v := by
  subst ha
  have h : ((leBytes 8 v.toNat ++ rest).take 8) = leBytes 8 v.toNat := by
    rw [List.take_append_of_le_length (by simp)]
    exact List.take_of_length_le (by simp)
  rw [i64At, List.drop_left, h, ofNat_leNat_leBytes]

theorem count?_append {a : Bytes} {n : Nat} (rest : Bytes) (hn : n < 2 ^ 64)
    (ha : countOffset (a ++ (leBytes 8 n ++ rest)) = a.length) :
    count? (a ++ (leBytes 8 n ++ rest)) = some n := by
  have := field?_append a (leBytes 8 n) rest
  rw [length_leBytes] at this
  rw [count?, ha, this, Option.map_some, leNat_leBytes_of_lt (by omega)]

/-! ### Tagged values and entries -/

@[simp] theorem length_encodeTV (v : TaggedValue) : (encodeTV v).length = 9 := by
  cases v <;> simp [encodeTV]

@[simp] theorem length_encodeEntry (e : Entry) : (encodeEntry e).length = 18 := by
  simp [encodeEntry]

theorem length_flatMap_encodeEntry (seq : List Entry) : (seq.flatMap encodeEntry).length = 18 * seq.length := by
  induction seq with
  | nil => rfl
  | cons e seq ih => simp [ih]; omega

theorem readTV_encodeTV (v : TaggedValue) : readTV (encodeTV v) = v := by
  cases v with
  | int v =>
    have := i64At_append (a := [0]) (off := 1) rfl v []
    simp only [List.append_nil, List.singleton_append] at this
    simpa [readTV, encodeTV] using this
  | nonint => rfl

theorem readEntries_flatMap (seq : List Entry) : readEntries seq.length (seq.flatMap encodeEntry) = seq := by
  induction seq with
  | nil => rfl
  | cons e seq ih =>
    have h9 : (encodeEntry e ++ seq.flatMap encodeEntry).take 9 = encodeTV e.key := by
      rw [encodeEntry, List.append_assoc, List.take_append_of_le_length (by simp)]
      exact List.take_of_length_le (by simp)
    have h18 : ((encodeEntry e ++ seq.flatMap encodeEntry).drop 9).take 9 = encodeTV e.val := by
      rw [encodeEntry, List.append_assoc, List.drop_append_of_le_length (by simp),
        List.drop_of_length_le (by simp), List.nil_append, List.take_append_of_le_length (by simp)]
      exact List.take_of_length_le (by simp)
    have hd : (encodeEntry e ++ seq.flatMap encodeEntry).drop 18 = seq.flatMap encodeEntry := by
      rw [List.drop_append_of_le_length (by simp), List.drop_of_length_le (by simp), List.nil_append]
    simp only [List.flatMap_cons, List.length_cons, readEntries, h9, h18, hd, ih, readTV_encodeTV]

/-! ### The slots of an encoded sequence -/

theorem taggedSlots_encodeTV (k : Nat) (v : TaggedValue) (rest : Bytes) :
    taggedSlots (k + 1) (encodeTV v ++ rest) =
      ((encodeTV v).headD 0, (encodeTV v).tail) :: taggedSlots k rest := by
  cases v with
  | int v =>
    have h : (leBytes 8 v.toNat ++ rest).take 8 = leBytes 8 v.toNat := by
      rw [List.take_append_of_le_length (by simp)]
      exact List.take_of_length_le (by simp)
    have h' : (leBytes 8 v.toNat ++ rest).drop 8 = rest := by
      rw [List.drop_append_of_le_length (by simp), List.drop_of_length_le (by simp), List.nil_append]
    simp [encodeTV, taggedSlots, h, h']
  | nonint => rfl

/-- No slot of encoded tagged values has a reserved tag or a non-zero `NONINT` payload. -/
theorem taggedSlots_legal (k : Nat) (tvs : List TaggedValue) :
    ∀ s ∈ taggedSlots k (tvs.flatMap encodeTV), ∃ v : TaggedValue, s = ((encodeTV v).headD 0, (encodeTV v).tail) := by
  induction tvs generalizing k with
  | nil => cases k <;> simp [taggedSlots]
  | cons v tvs ih =>
    cases k with
    | zero => simp [taggedSlots]
    | succ k =>
      rw [List.flatMap_cons, taggedSlots_encodeTV]
      intro s hs
      rcases List.mem_cons.1 hs with rfl | hs
      · exact ⟨v, rfl⟩
      · exact ih k s hs

theorem flatMap_encodeEntry (seq : List Entry) :
    seq.flatMap encodeEntry = (seq.flatMap fun e => [e.key, e.val]).flatMap encodeTV := by
  induction seq with
  | nil => rfl
  | cons e seq ih => simp [ih, encodeEntry]

theorem slotsOf_legal {f : Bytes} {seq : List Entry} (hb : f.drop (bodyOffset f) = seq.flatMap encodeEntry) :
    ∀ s ∈ slotsOf f, ∃ v : TaggedValue, s = ((encodeTV v).headD 0, (encodeTV v).tail) := by
  unfold slotsOf
  split
  · rw [hb, flatMap_encodeEntry]
    exact taggedSlots_legal _ _
  · simp

/-- A body of encoded entries has no reserved tag and no non-zero `NONINT` payload. -/
theorem slots_of_encoded {f : Bytes} {seq : List Entry} (hb : f.drop (bodyOffset f) = seq.flatMap encodeEntry) :
    hasReservedTag f = false ∧ hasNonintPayload f = false := by
  rw [hasReservedTag, hasNonintPayload, List.any_eq_false, List.any_eq_false]
  constructor <;> intro s hs <;> obtain ⟨v, rfl⟩ := slotsOf_legal hb s hs <;> cases v <;> simp [encodeTV]

/-- A `.B` frame has no tagged values at all. -/
theorem slots_of_bytes {f : Bytes} (hs : sBit f = false) :
    hasReservedTag f = false ∧ hasNonintPayload f = false := by
  simp [hasReservedTag, hasNonintPayload, slotsOf, hs]

/-- What the decoder reads in front of the body of a `.S` frame: where `COUNT` stands, `S`, and a legal header. -/
theorem seqFrame_fields {esize prior : I64} {fixed : Bytes}
    (h : fixed = leBytes 4 1 ++ leBytes 8 esize.toNat ∨
      fixed = leBytes 4 3 ++ leBytes 8 esize.toNat ++ leBytes 8 prior.toNat) (rest : Bytes) :
    countOffset (fixed ++ rest) = fixed.length ∧ sBit (fixed ++ rest) = true ∧
      hasReservedHeaderBits (fixed ++ rest) = false := by
  have key : ∃ w, (w = 1 ∨ w = 3) ∧ header? (fixed ++ rest) = some w ∧
      fixed.length = 4 + 8 + (if w = 3 then 8 else 0) := by
    rcases h with rfl | rfl
    · refine ⟨1, .inl rfl, ?_, by simp⟩
      rw [List.append_assoc]
      exact header?_append (by omega) _
    · refine ⟨3, .inr rfl, ?_, by simp⟩
      rw [List.append_assoc, List.append_assoc]
      exact header?_append (by omega) _
  obtain ⟨w, ho, hh, hl⟩ := key
  rcases ho with rfl | rfl <;> simp [countOffset, sBit, xBit, hasReservedHeaderBits, hh, hl, Nat.testBit]

/-- The slots of a `.S` frame are those of its body, at most two for each announced entry. -/
theorem slotsOf_seqFrame {esize prior : I64} {fixed : Bytes}
    (h : fixed = leBytes 4 1 ++ leBytes 8 esize.toNat ∨
      fixed = leBytes 4 3 ++ leBytes 8 esize.toNat ++ leBytes 8 prior.toNat)
    {n : Nat} (hn : n < 2 ^ 64) (body : Bytes) :
    slotsOf (fixed ++ (leBytes 8 n ++ body)) =
      taggedSlots (min (2 * n) (fixed ++ (leBytes 8 n ++ body)).length) body := by
  obtain ⟨h1, h2, -⟩ := seqFrame_fields h (leBytes 8 n ++ body)
  have hd : (fixed ++ (leBytes 8 n ++ body)).drop (fixed.length + 8) = body := by
    rw [← List.drop_drop, List.drop_left]
    exact List.drop_left' (by simp)
  unfold slotsOf
  rw [h2, count?_append body hn h1, bodyOffset, h1, hd]

/-- Encoded tagged values in front give one slot each. -/
theorem taggedSlots_flatMap_append (front : List TaggedValue) (k : Nat) (rest : Bytes) :
    taggedSlots (front.length + k) (front.flatMap encodeTV ++ rest) =
      front.map (fun v => ((encodeTV v).headD 0, (encodeTV v).tail)) ++ taggedSlots k rest := by
  induction front with
  | nil => simp
  | cons v vs ih =>
    rw [List.flatMap_cons, List.append_assoc,
      show (v :: vs).length + k = (vs.length + k) + 1 by simp; omega, taggedSlots_encodeTV, ih]
    simp

/-! ### Writing back what was read -/

theorem leBytes_leNat_field {f : Bytes} {off n : Nat} (h : off + n ≤ f.length) :
    leBytes n (leNat ((f.drop off).take n)) = (f.drop off).take n := by
  have hl : ((f.drop off).take n).length = n := by simp; omega
  simpa [hl] using leBytes_leNat ((f.drop off).take n)

theorem leBytes_i64At {f : Bytes} {off : Nat} (h : off + 8 ≤ f.length) :
    leBytes 8 (i64At f off).toNat = (f.drop off).take 8 := by
  have hl : ((f.drop off).take 8).length = 8 := by simp; omega
  have hlt := leNat_lt ((f.drop off).take 8)
  rw [hl] at hlt
  rw [i64At, BitVec.toNat_ofNat, Nat.mod_eq_of_lt (by norm_num at hlt ⊢; exact hlt)]
  exact leBytes_leNat_field h

/-- Nine bytes with a legal tag, and a zero payload where the tag says `NONINT`, are written back as they were. -/
theorem encodeTV_readTV {t : Byte} {rest : Bytes} (hl : 8 ≤ rest.length) (ht : t = 0 ∨ t = 1)
    (hp : t = 1 → ∀ b ∈ rest.take 8, b = 0) :
    encodeTV (readTV ((t :: rest).take 9)) = t :: rest.take 8 := by
  rcases ht with rfl | rfl
  · have h := leBytes_i64At (f := 0 :: rest.take 8) (off := 1) (by simp; omega)
    simp only [List.drop_succ_cons, List.drop_zero, List.take_take, min_self] at h
    simpa [readTV, encodeTV] using h
  · have h : rest.take 8 = List.replicate 8 0 := List.eq_replicate_iff.2 ⟨by simp; omega, hp rfl⟩
    simp [readTV, encodeTV, h]

/-- The same, from the two checks on a slot. -/
theorem encodeTV_readTV_of_slot {t : Byte} {rest : Bytes} (hl : 8 ≤ rest.length)
    (ht : (t != 0 && t != 1) = false)
    (hp : (t == 1 && (rest.take 8).length == 8 && (rest.take 8).any (· != 0)) = false) :
    encodeTV (readTV ((t :: rest).take 9)) = t :: rest.take 8 := by
  have hlen : ((rest.take 8).length == 8) = true := by rw [List.length_take, Nat.min_eq_left hl]; rfl
  refine encodeTV_readTV hl ?_ fun h b hb => ?_
  · rcases Bool.and_eq_false_iff.1 ht with h | h
    · exact .inl (bne_eq_false_iff_eq.1 h)
    · exact .inr (bne_eq_false_iff_eq.1 h)
  · rw [h, beq_self_eq_true, hlen, Bool.true_and, Bool.true_and, List.any_eq_false] at hp
    exact bne_eq_false_iff_eq.1 (Bool.eq_false_iff.2 (hp b hb))

/-- A body whose slots are all legal is written back as it was. -/
theorem flatMap_encodeEntry_readEntries (n : Nat) (bs : Bytes) (k : Nat) (hk : 2 * n ≤ k) (hl : bs.length = 18 * n)
    (ht : (taggedSlots k bs).any (fun s => s.1 != 0 && s.1 != 1) = false)
    (hp : (taggedSlots k bs).any (fun s => s.1 == 1 && s.2.length == 8 && s.2.any (· != 0)) = false) :
    (readEntries n bs).flatMap encodeEntry = bs ∧ (readEntries n bs).length = n := by
  induction n generalizing bs k with
  | zero => simp [readEntries, List.length_eq_zero_iff.1 (by simpa using hl)]
  | succ n ih =>
    obtain ⟨k, rfl⟩ : ∃ m, k = m + 2 := ⟨k - 2, by omega⟩
    cases bs with
    | nil => simp at hl
    | cons t rest =>
      simp only [List.length_cons] at hl
      have hne : rest.drop 8 ≠ [] := by
        intro h
        have := congrArg List.length h
        simp only [List.length_drop, List.length_nil] at this
        omega
      obtain ⟨t2, rest2, hrest⟩ := List.exists_cons_of_ne_nil hne
      have hl2 : rest2.length = 18 * n + 8 := by
        have := congrArg List.length hrest
        simp only [List.length_drop, List.length_cons] at this
        omega
      simp only [taggedSlots, hrest, List.any_cons, Bool.or_eq_false_iff] at ht hp
      have h9 : (t :: rest).drop 9 = t2 :: rest2 := by simp [← hrest]
      have h18 : (t :: rest).drop 18 = rest2.drop 8 := by
        have : (t :: rest).drop 18 = (rest.drop 8).drop 9 := by simp [List.drop_drop]
        rw [this, hrest]; simp
      obtain ⟨e1, e2⟩ := ih (rest2.drop 8) k (by omega) (by simp; omega) ht.2.2 hp.2.2
      constructor
      · simp only [readEntries, List.flatMap_cons, encodeEntry, h9, h18, e1]
        rw [encodeTV_readTV_of_slot (by omega) ht.1 hp.1, encodeTV_readTV_of_slot (by omega) ht.2.1 hp.2.1]
        simp only [List.cons_append, List.append_assoc]
        rw [List.take_append_drop, ← hrest, List.take_append_drop]
      · simp [readEntries, h18, e2]

/-! ### What the decoder answers -/

/-- A frame spells a command exactly where none of the eight reasons applies (R71, R73). -/
theorem refusalOf_eq_none {p : Params} {f : Bytes} : refusalOf p f = none ↔
    hasReservedHeaderBits f = false ∧ hasReservedTag f = false ∧ hasNonintPayload f = false ∧
    isOverMaxDataLen p f = false ∧ isOverMaxSeqLen p f = false ∧ isTruncated f = false ∧
    hasTrailingBytes f = false ∧ hasDuplicateKey f = false := by
  simp [refusalOf, refusalList]

theorem decode_eq_ok {p : Params} {f : Bytes} {i : Instr} :
    decode p f = .ok i ↔ refusalOf p f = none ∧ readCommand f = i := by
  unfold decode
  cases refusalOf p f <;> simp

end Sys2Proof
end

