-- ==== Sys2Proof/Laws/Engine.lean ====
section
/-! SUPPORT. The engine's register function: it folds over concatenation, it is linear, and a register whose low
bits are zero is only shifted. -/

namespace Sys2Proof.Machine

/-- `k` shifts of the register. -/
def shiftSteps : Nat → U32 → U32
  | 0, s => s
  | k + 1, s => shiftSteps k (shiftStep s)

theorem byteStep_eq_shiftSteps (s : U32) (b : Byte) : byteStep s b = shiftSteps 8 (s ^^^ b.setWidth 32) := rfl

theorem foldBytes_append (s : U32) (a b : Bytes) : foldBytes s (a ++ b) = foldBytes (foldBytes s a) b := by
  induction a generalizing s with
  | nil => rfl
  | cons x a ih => exact ih _

theorem shiftStep_xor (a b : U32) : shiftStep (a ^^^ b) = shiftStep a ^^^ shiftStep b := by
  unfold shiftStep
  rw [BitVec.getLsbD_xor, BitVec.ushiftRight_xor_distrib]
  cases a.getLsbD 0 <;> cases b.getLsbD 0 <;> simp
  · rw [BitVec.xor_assoc]
  · rw [BitVec.xor_assoc, BitVec.xor_assoc, BitVec.xor_comm polyReflected]
  · rw [BitVec.xor_assoc, BitVec.xor_comm polyReflected, BitVec.xor_assoc, BitVec.xor_self, BitVec.xor_zero]

theorem shiftSteps_xor (k : Nat) (a b : U32) :
    shiftSteps k (a ^^^ b) = shiftSteps k a ^^^ shiftSteps k b := by
  induction k generalizing a b with
  | zero => rfl
  | succ k ih => simp only [shiftSteps, shiftStep_xor, ih]

theorem shiftStep_of_low_zero {s : U32} (h : s.getLsbD 0 = false) : shiftStep s = s >>> 1 := by
  rw [shiftStep, h, if_neg Bool.false_ne_true]

/-- Where the low `k` bits are zero, `k` shifts are a plain shift. -/
theorem shiftSteps_of_low_zero (k : Nat) (s : U32) (h : ∀ i < k, s.getLsbD i = false) :
    shiftSteps k s = s >>> k := by
  induction k generalizing s with
  | zero => simp [shiftSteps]
  | succ k ih =>
    rw [shiftSteps, shiftStep_of_low_zero (h 0 (by omega)), ih]
    · rw [← BitVec.shiftRight_add, Nat.add_comm]
    · intro i hi
      rw [BitVec.getLsbD_ushiftRight]
      exact h _ (by omega)

/-- No other register shifts to zero: bit 31 of the reflected polynomial is set. -/
theorem eq_zero_of_shiftStep_eq_zero {s : U32} (h : shiftStep s = 0) : s = 0 := by
  unfold shiftStep at h
  split at h
  · have := congrArg (fun v => v.getLsbD 31) h
    simp [polyReflected] at this
  · apply BitVec.eq_of_getLsbD_eq
    intro i hi
    cases i with
    | zero => simp_all
    | succ i =>
      have := congrArg (fun v => v.getLsbD i) h
      simpa [BitVec.getLsbD_ushiftRight, Nat.add_comm] using this

theorem shiftStep_injective : Function.Injective shiftStep := by
  intro a b h
  have : shiftStep (a ^^^ b) = 0 := by rw [shiftStep_xor, h, BitVec.xor_self]; rfl
  have := eq_zero_of_shiftStep_eq_zero this
  exact BitVec.xor_eq_zero_iff.mp this

theorem shiftSteps_injective (k : Nat) : Function.Injective (shiftSteps k) := by
  induction k with
  | zero => exact fun _ _ h => h
  | succ k ih => exact fun _ _ h => shiftStep_injective (ih h)

theorem byteStep_injective (b : Byte) : Function.Injective (byteStep · b) := by
  intro s t h
  have := shiftSteps_injective 8 h
  simpa using congrArg (· ^^^ b.setWidth 32) this

/-- The fold is linear over GF(2), in register and data jointly. -/
theorem foldBytes_xor (s t : U32) (a b : Bytes) (h : a.length = b.length) :
    foldBytes (s ^^^ t) (List.zipWith (· ^^^ ·) a b) = foldBytes s a ^^^ foldBytes t b := by
  induction a generalizing s t b with
  | nil => cases b <;> simp_all [foldBytes]
  | cons x a ih =>
    cases b with
    | nil => simp at h
    | cons y b =>
      simp only [List.zipWith_cons_cons, foldBytes]
      rw [← ih _ _ _ (by simpa using h)]
      congr 1
      simp only [byteStep_eq_shiftSteps]
      rw [← shiftSteps_xor]
      congr 1
      apply BitVec.eq_of_getLsbD_eq
      intro i hi
      simp only [BitVec.getLsbD_xor, BitVec.getLsbD_setWidth]
      cases s.getLsbD i <;> cases t.getLsbD i <;> cases x.getLsbD i <;> cases y.getLsbD i <;> simp [hi]

end Sys2Proof.Machine
end

