-- ==== Sys2Proof/Laws/State.lean ====
section
/-! SUPPORT. What each update of State leaves in each field: one lemma per field per update, true by rfl. -/

namespace Sys2Proof.Machine

/-! ### withAcc -/

@[simp] theorem State.withAcc_params (s : State) (v : U32) : (s.withAcc v).params = s.params := rfl
@[simp] theorem State.withAcc_phase (s : State) (v : U32) : (s.withAcc v).phase = s.phase := rfl
@[simp] theorem State.withAcc_outstanding (s : State) (v : U32) : (s.withAcc v).outstanding = s.outstanding := rfl
@[simp] theorem State.withAcc_pending (s : State) (v : U32) : (s.withAcc v).pending = s.pending := rfl
@[simp] theorem State.withAcc_acc (s : State) (v : U32) : (s.withAcc v).acc = v := rfl
@[simp] theorem State.withAcc_ebuf (s : State) (v : U32) : (s.withAcc v).ebuf = s.ebuf := rfl
@[simp] theorem State.withAcc_esz (s : State) (v : U32) : (s.withAcc v).esz = s.esz := rfl
@[simp] theorem State.withAcc_choices (s : State) (v : U32) : (s.withAcc v).choices = s.choices := rfl
@[simp] theorem State.withAcc_issued (s : State) (v : U32) : (s.withAcc v).issued = s.issued := rfl
@[simp] theorem State.withAcc_delivered (s : State) (v : U32) : (s.withAcc v).delivered = s.delivered := rfl

/-! ### withEsz -/

@[simp] theorem State.withEsz_params (s : State) (n : ESize) : (s.withEsz n).params = s.params := rfl
@[simp] theorem State.withEsz_phase (s : State) (n : ESize) : (s.withEsz n).phase = s.phase := rfl
@[simp] theorem State.withEsz_outstanding (s : State) (n : ESize) : (s.withEsz n).outstanding = s.outstanding := rfl
@[simp] theorem State.withEsz_pending (s : State) (n : ESize) : (s.withEsz n).pending = s.pending := rfl
@[simp] theorem State.withEsz_acc (s : State) (n : ESize) : (s.withEsz n).acc = s.acc := rfl
@[simp] theorem State.withEsz_ebuf (s : State) (n : ESize) : (s.withEsz n).ebuf = s.ebuf := rfl
@[simp] theorem State.withEsz_esz (s : State) (n : ESize) : (s.withEsz n).esz = n := rfl
@[simp] theorem State.withEsz_choices (s : State) (n : ESize) : (s.withEsz n).choices = s.choices := rfl
@[simp] theorem State.withEsz_issued (s : State) (n : ESize) : (s.withEsz n).issued = s.issued := rfl
@[simp] theorem State.withEsz_delivered (s : State) (n : ESize) : (s.withEsz n).delivered = s.delivered := rfl

/-! ### writeEbuf -/

@[simp] theorem State.writeEbuf_params (s : State) (bs : Bytes) : (s.writeEbuf bs).params = s.params := rfl
@[simp] theorem State.writeEbuf_phase (s : State) (bs : Bytes) : (s.writeEbuf bs).phase = s.phase := rfl
@[simp] theorem State.writeEbuf_outstanding (s : State) (bs : Bytes) : (s.writeEbuf bs).outstanding = s.outstanding := rfl
@[simp] theorem State.writeEbuf_pending (s : State) (bs : Bytes) : (s.writeEbuf bs).pending = s.pending := rfl
@[simp] theorem State.writeEbuf_acc (s : State) (bs : Bytes) : (s.writeEbuf bs).acc = s.acc := rfl
@[simp] theorem State.writeEbuf_ebuf (s : State) (bs : Bytes) : (s.writeEbuf bs).ebuf = bs ++ s.ebuf.drop bs.length := rfl
@[simp] theorem State.writeEbuf_esz (s : State) (bs : Bytes) : (s.writeEbuf bs).esz = s.esz := rfl
@[simp] theorem State.writeEbuf_choices (s : State) (bs : Bytes) : (s.writeEbuf bs).choices = s.choices := rfl
@[simp] theorem State.writeEbuf_issued (s : State) (bs : Bytes) : (s.writeEbuf bs).issued = s.issued := rfl
@[simp] theorem State.writeEbuf_delivered (s : State) (bs : Bytes) : (s.writeEbuf bs).delivered = s.delivered := rfl

/-! ### loadAcc -/

@[simp] theorem State.loadAcc_params (s : State) (c : U32) : (s.loadAcc c).params = s.params := rfl
@[simp] theorem State.loadAcc_phase (s : State) (c : U32) : (s.loadAcc c).phase = s.phase := rfl
@[simp] theorem State.loadAcc_outstanding (s : State) (c : U32) : (s.loadAcc c).outstanding = s.outstanding := rfl
@[simp] theorem State.loadAcc_pending (s : State) (c : U32) : (s.loadAcc c).pending = s.pending := rfl
@[simp] theorem State.loadAcc_acc (s : State) (c : U32) : (s.loadAcc c).acc = c ^^^ seed := rfl
@[simp] theorem State.loadAcc_ebuf (s : State) (c : U32) : (s.loadAcc c).ebuf = s.ebuf := rfl
@[simp] theorem State.loadAcc_esz (s : State) (c : U32) : (s.loadAcc c).esz = s.esz := rfl
@[simp] theorem State.loadAcc_choices (s : State) (c : U32) : (s.loadAcc c).choices = s.choices := rfl
@[simp] theorem State.loadAcc_issued (s : State) (c : U32) : (s.loadAcc c).issued = s.issued := rfl
@[simp] theorem State.loadAcc_delivered (s : State) (c : U32) : (s.loadAcc c).delivered = s.delivered := rfl

/-! ### foldAcc -/

@[simp] theorem State.foldAcc_params (s : State) (d : Bytes) : (s.foldAcc d).params = s.params := rfl
@[simp] theorem State.foldAcc_phase (s : State) (d : Bytes) : (s.foldAcc d).phase = s.phase := rfl
@[simp] theorem State.foldAcc_outstanding (s : State) (d : Bytes) : (s.foldAcc d).outstanding = s.outstanding := rfl
@[simp] theorem State.foldAcc_pending (s : State) (d : Bytes) : (s.foldAcc d).pending = s.pending := rfl
@[simp] theorem State.foldAcc_acc (s : State) (d : Bytes) : (s.foldAcc d).acc = foldBytes s.acc d := rfl
@[simp] theorem State.foldAcc_ebuf (s : State) (d : Bytes) : (s.foldAcc d).ebuf = s.ebuf := rfl
@[simp] theorem State.foldAcc_esz (s : State) (d : Bytes) : (s.foldAcc d).esz = s.esz := rfl
@[simp] theorem State.foldAcc_choices (s : State) (d : Bytes) : (s.foldAcc d).choices = s.choices := rfl
@[simp] theorem State.foldAcc_issued (s : State) (d : Bytes) : (s.foldAcc d).issued = s.issued := rfl
@[simp] theorem State.foldAcc_delivered (s : State) (d : Bytes) : (s.foldAcc d).delivered = s.delivered := rfl

/-! ### runEngine -/

@[simp] theorem State.runEngine_params (s : State) (c : U32) (d : Bytes) : (s.runEngine c d).params = s.params := rfl
@[simp] theorem State.runEngine_phase (s : State) (c : U32) (d : Bytes) : (s.runEngine c d).phase = s.phase := rfl
@[simp] theorem State.runEngine_outstanding (s : State) (c : U32) (d : Bytes) : (s.runEngine c d).outstanding = s.outstanding := rfl
@[simp] theorem State.runEngine_pending (s : State) (c : U32) (d : Bytes) : (s.runEngine c d).pending = s.pending := rfl
@[simp] theorem State.runEngine_acc (s : State) (c : U32) (d : Bytes) : (s.runEngine c d).acc = foldBytes (c ^^^ seed) d := rfl
@[simp] theorem State.runEngine_ebuf (s : State) (c : U32) (d : Bytes) : (s.runEngine c d).ebuf = s.ebuf := rfl
@[simp] theorem State.runEngine_esz (s : State) (c : U32) (d : Bytes) : (s.runEngine c d).esz = s.esz := rfl
@[simp] theorem State.runEngine_choices (s : State) (c : U32) (d : Bytes) : (s.runEngine c d).choices = s.choices := rfl
@[simp] theorem State.runEngine_issued (s : State) (c : U32) (d : Bytes) : (s.runEngine c d).issued = s.issued := rfl
@[simp] theorem State.runEngine_delivered (s : State) (c : U32) (d : Bytes) : (s.runEngine c d).delivered = s.delivered := rfl

/-! ### accept -/

@[simp] theorem State.accept_params (s : State) (i : Instr) (rest : List HostEvent) : (s.accept i rest).params = s.params := rfl
@[simp] theorem State.accept_phase (s : State) (i : Instr) (rest : List HostEvent) : (s.accept i rest).phase = .busy := rfl
@[simp] theorem State.accept_outstanding (s : State) (i : Instr) (rest : List HostEvent) : (s.accept i rest).outstanding = some i := rfl
@[simp] theorem State.accept_pending (s : State) (i : Instr) (rest : List HostEvent) : (s.accept i rest).pending = none := rfl
@[simp] theorem State.accept_acc (s : State) (i : Instr) (rest : List HostEvent) : (s.accept i rest).acc = s.acc := rfl
@[simp] theorem State.accept_ebuf (s : State) (i : Instr) (rest : List HostEvent) : (s.accept i rest).ebuf = s.ebuf := rfl
@[simp] theorem State.accept_esz (s : State) (i : Instr) (rest : List HostEvent) : (s.accept i rest).esz = s.esz := rfl
@[simp] theorem State.accept_choices (s : State) (i : Instr) (rest : List HostEvent) : (s.accept i rest).choices = s.choices := rfl
@[simp] theorem State.accept_issued (s : State) (i : Instr) (rest : List HostEvent) : (s.accept i rest).issued = rest := rfl
@[simp] theorem State.accept_delivered (s : State) (i : Instr) (rest : List HostEvent) : (s.accept i rest).delivered = s.delivered := rfl

/-! ### withPending -/

@[simp] theorem State.withPending_params (s : State) (r : Response) : (s.withPending r).params = s.params := rfl
@[simp] theorem State.withPending_phase (s : State) (r : Response) : (s.withPending r).phase = s.phase := rfl
@[simp] theorem State.withPending_outstanding (s : State) (r : Response) : (s.withPending r).outstanding = s.outstanding := rfl
@[simp] theorem State.withPending_pending (s : State) (r : Response) : (s.withPending r).pending = some r := rfl
@[simp] theorem State.withPending_acc (s : State) (r : Response) : (s.withPending r).acc = s.acc := rfl
@[simp] theorem State.withPending_ebuf (s : State) (r : Response) : (s.withPending r).ebuf = s.ebuf := rfl
@[simp] theorem State.withPending_esz (s : State) (r : Response) : (s.withPending r).esz = s.esz := rfl
@[simp] theorem State.withPending_choices (s : State) (r : Response) : (s.withPending r).choices = s.choices := rfl
@[simp] theorem State.withPending_issued (s : State) (r : Response) : (s.withPending r).issued = s.issued := rfl
@[simp] theorem State.withPending_delivered (s : State) (r : Response) : (s.withPending r).delivered = s.delivered := rfl

/-! ### deliver -/

@[simp] theorem State.deliver_params (s : State) : (s.deliver).params = s.params := rfl
@[simp] theorem State.deliver_phase (s : State) : (s.deliver).phase = .idle := rfl
@[simp] theorem State.deliver_outstanding (s : State) : (s.deliver).outstanding = none := rfl
@[simp] theorem State.deliver_pending (s : State) : (s.deliver).pending = none := rfl
@[simp] theorem State.deliver_acc (s : State) : (s.deliver).acc = s.acc := rfl
@[simp] theorem State.deliver_ebuf (s : State) : (s.deliver).ebuf = s.ebuf := rfl
@[simp] theorem State.deliver_esz (s : State) : (s.deliver).esz = s.esz := rfl
@[simp] theorem State.deliver_choices (s : State) : (s.deliver).choices = s.choices := rfl
@[simp] theorem State.deliver_issued (s : State) : (s.deliver).issued = s.issued := rfl
@[simp] theorem State.deliver_delivered (s : State) : (s.deliver).delivered = s.delivered ++ s.pending.toList := rfl

/-! ### respond -/

@[simp] theorem State.respond_params (s : State) (r : Response) : (s.respond r).params = s.params := rfl
@[simp] theorem State.respond_phase (s : State) (r : Response) : (s.respond r).phase = .idle := rfl
@[simp] theorem State.respond_outstanding (s : State) (r : Response) : (s.respond r).outstanding = none := rfl
@[simp] theorem State.respond_pending (s : State) (r : Response) : (s.respond r).pending = none := rfl
@[simp] theorem State.respond_acc (s : State) (r : Response) : (s.respond r).acc = s.acc := rfl
@[simp] theorem State.respond_ebuf (s : State) (r : Response) : (s.respond r).ebuf = s.ebuf := rfl
@[simp] theorem State.respond_esz (s : State) (r : Response) : (s.respond r).esz = s.esz := rfl
@[simp] theorem State.respond_choices (s : State) (r : Response) : (s.respond r).choices = s.choices := rfl
@[simp] theorem State.respond_issued (s : State) (r : Response) : (s.respond r).issued = s.issued := rfl
@[simp] theorem State.respond_delivered (s : State) (r : Response) : (s.respond r).delivered = s.delivered ++ [r] := rfl

/-! ### respondChecksum -/

@[simp] theorem State.respondChecksum_params (s : State) : (s.respondChecksum).params = s.params := rfl
@[simp] theorem State.respondChecksum_phase (s : State) : (s.respondChecksum).phase = .idle := rfl
@[simp] theorem State.respondChecksum_outstanding (s : State) : (s.respondChecksum).outstanding = none := rfl
@[simp] theorem State.respondChecksum_pending (s : State) : (s.respondChecksum).pending = none := rfl
@[simp] theorem State.respondChecksum_acc (s : State) : (s.respondChecksum).acc = s.acc := rfl
@[simp] theorem State.respondChecksum_ebuf (s : State) : (s.respondChecksum).ebuf = s.ebuf := rfl
@[simp] theorem State.respondChecksum_esz (s : State) : (s.respondChecksum).esz = s.esz := rfl
@[simp] theorem State.respondChecksum_choices (s : State) : (s.respondChecksum).choices = s.choices := rfl
@[simp] theorem State.respondChecksum_issued (s : State) : (s.respondChecksum).issued = s.issued := rfl
@[simp] theorem State.respondChecksum_delivered (s : State) : (s.respondChecksum).delivered = s.delivered ++ [.ok s.engineResult] := rfl

/-! ### countChoice -/

@[simp] theorem State.countChoice_params (s : State) (ks : List ErrorKind) : (s.countChoice ks).params = s.params := rfl
@[simp] theorem State.countChoice_phase (s : State) (ks : List ErrorKind) : (s.countChoice ks).phase = s.phase := rfl
@[simp] theorem State.countChoice_outstanding (s : State) (ks : List ErrorKind) : (s.countChoice ks).outstanding = s.outstanding := rfl
@[simp] theorem State.countChoice_pending (s : State) (ks : List ErrorKind) : (s.countChoice ks).pending = s.pending := rfl
@[simp] theorem State.countChoice_acc (s : State) (ks : List ErrorKind) : (s.countChoice ks).acc = s.acc := rfl
@[simp] theorem State.countChoice_ebuf (s : State) (ks : List ErrorKind) : (s.countChoice ks).ebuf = s.ebuf := rfl
@[simp] theorem State.countChoice_esz (s : State) (ks : List ErrorKind) : (s.countChoice ks).esz = s.esz := rfl
@[simp] theorem State.countChoice_choices (s : State) (ks : List ErrorKind) : (s.countChoice ks).choices = s.choices + (s.choosesFreely ks).toNat := rfl
@[simp] theorem State.countChoice_issued (s : State) (ks : List ErrorKind) : (s.countChoice ks).issued = s.issued := rfl
@[simp] theorem State.countChoice_delivered (s : State) (ks : List ErrorKind) : (s.countChoice ks).delivered = s.delivered := rfl

/-! ### raise -/

@[simp] theorem State.raise_params (s : State) (k : ErrorKind) (ks : List ErrorKind) : (s.raise k ks).params = s.params := rfl
@[simp] theorem State.raise_phase (s : State) (k : ErrorKind) (ks : List ErrorKind) : (s.raise k ks).phase = .idle := rfl
@[simp] theorem State.raise_outstanding (s : State) (k : ErrorKind) (ks : List ErrorKind) : (s.raise k ks).outstanding = none := rfl
@[simp] theorem State.raise_pending (s : State) (k : ErrorKind) (ks : List ErrorKind) : (s.raise k ks).pending = none := rfl
@[simp] theorem State.raise_acc (s : State) (k : ErrorKind) (ks : List ErrorKind) : (s.raise k ks).acc = s.acc := rfl
@[simp] theorem State.raise_ebuf (s : State) (k : ErrorKind) (ks : List ErrorKind) : (s.raise k ks).ebuf = s.ebuf := rfl
@[simp] theorem State.raise_esz (s : State) (k : ErrorKind) (ks : List ErrorKind) : (s.raise k ks).esz = s.esz := rfl
@[simp] theorem State.raise_choices (s : State) (k : ErrorKind) (ks : List ErrorKind) : (s.raise k ks).choices = s.choices + (s.choosesFreely ks).toNat := rfl
@[simp] theorem State.raise_issued (s : State) (k : ErrorKind) (ks : List ErrorKind) : (s.raise k ks).issued = s.issued := rfl
@[simp] theorem State.raise_delivered (s : State) (k : ErrorKind) (ks : List ErrorKind) : (s.raise k ks).delivered = s.delivered ++ [.err (s.reportedKind k ks)] := rfl

/-! ### resetInstance -/

@[simp] theorem State.resetInstance_params (s : State) (rest : List HostEvent) : (s.resetInstance rest).params = s.params := rfl
@[simp] theorem State.resetInstance_phase (s : State) (rest : List HostEvent) : (s.resetInstance rest).phase = .idle := rfl
@[simp] theorem State.resetInstance_outstanding (s : State) (rest : List HostEvent) : (s.resetInstance rest).outstanding = none := rfl
@[simp] theorem State.resetInstance_pending (s : State) (rest : List HostEvent) : (s.resetInstance rest).pending = none := rfl
@[simp] theorem State.resetInstance_acc (s : State) (rest : List HostEvent) : (s.resetInstance rest).acc = 0 := rfl
@[simp] theorem State.resetInstance_ebuf (s : State) (rest : List HostEvent) : (s.resetInstance rest).ebuf = List.replicate 8 0 := rfl
@[simp] theorem State.resetInstance_esz (s : State) (rest : List HostEvent) : (s.resetInstance rest).esz = .one := rfl
@[simp] theorem State.resetInstance_choices (s : State) (rest : List HostEvent) : (s.resetInstance rest).choices = s.choices := rfl
@[simp] theorem State.resetInstance_issued (s : State) (rest : List HostEvent) : (s.resetInstance rest).issued = rest := rfl
@[simp] theorem State.resetInstance_delivered (s : State) (rest : List HostEvent) : (s.resetInstance rest).delivered = s.delivered := rfl

/-! ### Values computed from a state -/

@[simp] theorem State.readEbuf_writeEbuf (s : State) (bs : Bytes) : (s.writeEbuf bs).readEbuf bs.length = bs := by
  simp [State.readEbuf]

@[simp] theorem State.engineResult_runEngine (s : State) (c : U32) (d : Bytes) :
    (s.runEngine c d).engineResult = engineExtend c d := rfl

@[simp] theorem State.choosesFreely_canonical (s : State) (ks : List ErrorKind)
    (h : s.params.errorSelect = .canonical) : s.choosesFreely ks = false := by
  simp [State.choosesFreely, h]

@[simp] theorem State.reportedKind_canonical (s : State) (k : ErrorKind) (ks : List ErrorKind)
    (h : s.params.errorSelect = .canonical) : s.reportedKind k ks = k := by
  simp [State.reportedKind, h]

end Sys2Proof.Machine
end

