-- ==== Sys2Proof/Laws/Marshal.lean ====
section
/-! SUPPORT. The operand forms and the marshaler: the ascending order, the encoding, and all that the walk can do. -/

namespace Sys2Proof.Machine

/-! ### Ascending position order -/

theorem insertByPosition_perm (e : Entry) (l : List Entry) : (insertByPosition e l).Perm (e :: l) := by
  induction l with
  | nil => exact .refl _
  | cons x xs ih =>
    unfold insertByPosition
    split
    · exact .refl _
    · exact (ih.cons x).trans (.swap e x xs)

theorem sortByPosition_perm (l : List Entry) : (sortByPosition l).Perm l := by
  induction l with
  | nil => exact .refl _
  | cons e es ih => exact (insertByPosition_perm e _).trans (ih.cons e)

@[simp] theorem mem_sortByPosition {e : Entry} {l : List Entry} : e ∈ sortByPosition l ↔ e ∈ l :=
  (sortByPosition_perm l).mem_iff

@[simp] theorem length_sortByPosition (l : List Entry) : (sortByPosition l).length = l.length :=
  (sortByPosition_perm l).length_eq

theorem insertByPosition_sorted (e : Entry) {l : List Entry}
    (h : l.Pairwise fun a b => a.position ≤ b.position) :
    (insertByPosition e l).Pairwise fun a b => a.position ≤ b.position := by
  induction l with
  | nil => simp [insertByPosition]
  | cons x xs ih =>
    rw [List.pairwise_cons] at h
    unfold insertByPosition
    split
    case isTrue hle =>
      refine List.pairwise_cons.2 ⟨fun y hy => ?_, List.pairwise_cons.2 h⟩
      rcases List.mem_cons.1 hy with rfl | hy
      · exact hle
      · exact le_trans hle (h.1 y hy)
    case isFalse hlt =>
      refine List.pairwise_cons.2 ⟨fun y hy => ?_, ih h.2⟩
      rcases List.mem_cons.1 ((insertByPosition_perm e xs).mem_iff.1 hy) with rfl | hy
      · exact le_of_lt (not_le.1 hlt)
      · exact h.1 y hy

theorem sortByPosition_sorted (l : List Entry) :
    (sortByPosition l).Pairwise fun a b => a.position ≤ b.position := by
  induction l with
  | nil => exact .nil
  | cons e es ih => exact insertByPosition_sorted e ih

/-! ### Element sizes and encodings -/

theorem esizeOfInt_eq_some {v : Int} {n : ESize} : esizeOfInt v = some n ↔ v = n.toNat := by
  unfold esizeOfInt
  split_ifs <;> cases n <;> simp [ESize.toNat] <;> omega

@[simp] theorem length_encodeLE (v : Int) (n : ESize) : (encodeLE v n).length = n.toNat := by
  simp [encodeLE]

@[simp] theorem readEbuf_writeEbuf_encodeLE (s : State) (v : Int) (n : ESize) :
    (s.writeEbuf (encodeLE v n)).readEbuf n.toNat = encodeLE v n := by
  simpa using s.readEbuf_writeEbuf (encodeLE v n)

/-! ### The walk -/

/-- Everything the walk changes is in `EBUF`, below the element size. -/
theorem marshalWalk_frame (n : ESize) (l : List Entry) (s : State) :
    ∃ buf, (marshalWalk n l s).1 = { s with ebuf := buf } ∧ buf.drop n.toNat = s.ebuf.drop n.toNat ∧
      (s.ebuf.length = 8 → buf.length = 8) := by
  induction l generalizing s with
  | nil => exact ⟨s.ebuf, rfl, rfl, id⟩
  | cons e l ih =>
    unfold marshalWalk
    split
    · exact ⟨s.ebuf, rfl, rfl, id⟩
    · obtain ⟨buf, h1, h2, h3⟩ := ih (s.writeEbuf (encodeLE e.value n))
      refine ⟨buf, h1, ?_, fun h => h3 ?_⟩
      · rw [h2]; simp
      · have : n.toNat ≤ 8 := by cases n <;> decide
        simp [h]; omega

/-- The walk's result: the first entry's error, or every value's bytes in order. -/
theorem marshalWalk_result (n : ESize) (l : List Entry) (s : State) :
    (marshalWalk n l s).2 = match l.findSome? (entryError n) with
      | some k => .error k
      | none => .ok (l.flatMap fun e => encodeLE e.value n) := by
  induction l generalizing s with
  | nil => rfl
  | cons e l ih =>
    unfold marshalWalk
    cases h : entryError n e with
    | some k => simp [h]
    | none =>
      simp only [List.findSome?_cons, h, ih, readEbuf_writeEbuf_encodeLE]
      cases l.findSome? (entryError n) <;> simp [Except.map]

/-- Everything `MARSHAL_SEQ` changes: `ESZ` where the size is legal, and `EBUF`. -/
theorem marshalSeq_frame (esize : I64) (seq : List Entry) (s : State) :
    ∃ z buf, (marshalSeq esize seq s).1 = { s with esz := z, ebuf := buf } ∧
      (s.ebuf.length = 8 → buf.length = 8) := by
  unfold marshalSeq
  split
  · exact ⟨s.esz, s.ebuf, rfl, id⟩
  · rename_i n _
    dsimp only
    split
    · exact ⟨n, s.ebuf, rfl, id⟩
    · obtain ⟨buf, h1, _, h3⟩ := marshalWalk_frame n (sortByPosition seq) (s.withEsz n)
      exact ⟨n, buf, h1, h3⟩

/-- The result of `MARSHAL_SEQ` once the element size is legal and every key is an integer. -/
theorem marshalSeq_result_of_size {esize : I64} {n : ESize} (seq : List Entry) (s : State)
    (hn : esizeOfInt esize.toInt = some n) (hk : seq.any hasNonIntegerKey = false) :
    (marshalSeq esize seq s).2 = match (sortByPosition seq).findSome? (entryError n) with
      | some k => .error k
      | none => .ok (sequenceBytes n seq) := by
  simp [marshalSeq, hn, hk, marshalWalk_result, sequenceBytes]

/-- Every `.S` command ends in one response: the engine's result over the marshaled bytes, or the marshaler's error;
besides that it changes `ACC`, `EBUF`, `ESZ` and the counter of free choices only. -/
theorem checksumSeq_answers (c : U32) (esize : I64) (seq : List Entry) (s : State) :
    ∃ r, Answers s (checksumSeq c esize seq s) r ∧
      r = match (marshalSeq esize seq s).2 with
        | .ok d => .ok (engineExtend c d)
        | .error k => .err (s.reportedKind k (seqErrors esize seq)) := by
  obtain ⟨z, buf, h1, _⟩ := marshalSeq_frame esize seq s
  unfold checksumSeq
  generalize hm : marshalSeq esize seq s = m at h1 ⊢
  obtain ⟨t, x⟩ := m
  simp only at h1
  subst h1
  cases x with
  | ok d => exact ⟨_, ⟨rfl, rfl, rfl, rfl, rfl, rfl⟩, rfl⟩
  | error k => exact ⟨_, ⟨rfl, rfl, rfl, rfl, rfl, rfl⟩, rfl⟩

/-- Every `.B` command whose prior is legal ends in the engine's result. -/
theorem checksumBytes_answers (c : U32) (data : Bytes) (s : State) :
    Answers s (checksumBytes c data s) (.ok (engineExtend c data)) :=
  ⟨rfl, rfl, rfl, rfl, rfl, rfl⟩

end Sys2Proof.Machine
end

