-- ==== Sys2Proof/Laws/Errors.lean ====
section
/-! SUPPORT. The errors: what the checks say of the applicable set, and which kind is reported. -/

namespace Sys2Proof.Machine

theorem checkPrior_error {p : I64} {k : ErrorKind} (h : checkPrior p = .error k) :
    priorErrors p = [.checksumOutOfRange] ∧ k = .checksumOutOfRange := by
  unfold checkPrior at h
  unfold priorErrors
  split at h <;> simp_all

theorem checkPrior_ok {p : I64} {c : U32} (h : checkPrior p = .ok c) :
    priorErrors p = [] ∧ c = p.setWidth 32 := by
  unfold checkPrior at h
  unfold priorErrors
  split at h <;> simp_all

/-- The check that an entry fails is one of those that R168 lists for the sequence. -/
theorem entryError_mem_seqErrors {esize : I64} {n : ESize} {seq : List Entry} {e : Entry} {k : ErrorKind}
    (hn : esizeOfInt esize.toInt = some n) (he : e ∈ seq) (h : entryError n e = some k) : k ∈ seqErrors esize seq := by
  have hany : ∀ f : Entry → Bool, f e = true → seq.any f = true := fun f hf => List.any_eq_true.2 ⟨e, he, hf⟩
  unfold entryError at h
  split_ifs at h with h1 h2 h3 <;> cases h
  · simp [seqErrors, hany _ h1]
  · simp [seqErrors, hany _ h2]
  · simp [seqErrors, rangeErrors, hn, hany _ h3]

theorem seqCanonicalError_mem {esize : I64} {seq : List Entry} {k : ErrorKind}
    (h : seqCanonicalError esize seq = some k) : k ∈ seqErrors esize seq := by
  unfold seqCanonicalError at h
  split at h
  case h_1 hn => cases h; simp [seqErrors, hn]
  case h_2 n hn =>
    split at h
    case isTrue hk => cases h; simp [seqErrors, hk]
    case isFalse =>
      obtain ⟨e, he, hk⟩ := List.exists_of_findSome?_eq_some h
      exact entryError_mem_seqErrors hn (mem_sortByPosition.1 he) hk

/-- Where the canonical order finds no error, none applies. -/
theorem seqErrors_eq_nil {esize : I64} {seq : List Entry} (h : seqCanonicalError esize seq = none) :
    seqErrors esize seq = [] := by
  unfold seqCanonicalError at h
  split at h
  case h_1 => cases h
  case h_2 n hn =>
    split at h
    case isTrue => cases h
    case isFalse hk =>
      rw [List.findSome?_eq_none_iff] at h
      have hnone : ∀ e ∈ seq, entryError n e = none := fun e he => h e (mem_sortByPosition.2 he)
      have h1 : seq.any hasNonPositiveKey = false := List.any_eq_false.2 fun e he hf => by
        simpa [entryError, hf] using hnone e he
      have h2 : seq.any hasNonIntegerValue = false := List.any_eq_false.2 fun e he hf => by
        have := hnone e he
        unfold entryError at this
        split_ifs at this
      have h3 : seq.any (hasValueOutOfRange n) = false := List.any_eq_false.2 fun e he hf => by
        have := hnone e he
        unfold entryError at this
        split_ifs at this
      simp only [Bool.not_eq_true] at hk
      simp [seqErrors, rangeErrors, hn, hk, h1, h2, h3]

/-- The kind reported is an applicable one, under either setting. -/
theorem State.reportedKind_mem (s : State) {k : ErrorKind} {ks : List ErrorKind} (h : k ∈ ks) :
    s.reportedKind k ks ∈ ks := by
  unfold State.reportedKind
  split
  · have hpos : 0 < ks.length := List.length_pos_of_mem h
    rw [List.getD_eq_getElem?_getD, List.getElem?_eq_getElem (Nat.mod_lt _ hpos)]
    simp
  · exact h

/-- Where the prior's error applies there is no free choice. -/
theorem State.reportedKind_of_prior (s : State) {k : ErrorKind} {ks : List ErrorKind}
    (h : .checksumOutOfRange ∈ ks) : s.reportedKind k ks = k := by
  simp [State.reportedKind, State.choosesFreely, h]

end Sys2Proof.Machine
end

