-- ==== Sys2Proof/Laws/HostProgram.lean ====
section
/-! SUPPORT. What the Host gets when it issues one command to an IDLE instance. -/

namespace Sys2Proof.Machine

/-- An IDLE instance accepts the command and runs it; the Host receives its response. -/
theorem issueCommand_of_exec {i : Instr} {s t : State} {r : Response} (hp : s.phase = .idle)
    (hd : decode s.params (encode i) = .ok i) (hx : exec i (s.accept i s.issued) = .next t)
    (hr : t.delivered = s.delivered ++ [r]) : issueCommand i s = .ok (r, t) := by
  have hstep : step { s with issued := .issue (encode i) :: s.issued } = .next t := by
    unfold step
    simp only [hp, hd]
    exact hx
  have hwait : waitIdle s = .ok s := by simp [waitIdle, hp]
  have hhost : hostStep { s with issued := .issue (encode i) :: s.issued } = .ok t := by rw [hostStep, hstep]
  rw [issueCommand, hwait]
  change (hostStep { s with issued := .issue (encode i) :: s.issued }).bind lastResponse = _
  rw [hhost]
  simp [Except.bind, lastResponse, hr]

end Sys2Proof.Machine
end

