-- ==== Sys2Proof/Laws/PerInstr.lean ====
section
/-! SUPPORT. Statements made once per command about the command as syntax. -/

namespace Sys2Proof.Laws.HeaderWord

/-- The frame of a command begins with its header word, and the bits `S` and `X` of it are what the decoder reads
(30_encoding.md R61, R62). -/
def Statement (i : Instr) : Prop :=
  header? (encode i) = some (headerWord i) ∧
    sBit (encode i) = (headerWord i).testBit 0 ∧ xBit (encode i) = (headerWord i).testBit 1

theorem of_lt {i : Instr} (h : headerWord i < 4) : Statement i := by
  have hh : header? (encode i) = some (headerWord i) := header?_append h _
  simp [Statement, sBit, xBit, hh]

theorem valueB (data : Bytes) : Statement (.valueB data) := of_lt (by simp [headerWord])

theorem valueS (esize : I64) (seq : List Entry) : Statement (.valueS esize seq) := of_lt (by simp [headerWord])

theorem extendB (data : Bytes) (prior : I64) : Statement (.extendB data prior) := of_lt (by simp [headerWord])

theorem extendS (esize : I64) (seq : List Entry) (prior : I64) : Statement (.extendS esize seq prior) :=
  of_lt (by simp [headerWord])

end Sys2Proof.Laws.HeaderWord
end

