-- ==== Sys2Proof/Machine/Assembler.lean ====
section
/-! DEFINITION. The assembler syntax of Host programs (30_encoding.md R74 to R76): one line of text to one line of a
Host program. The names `hN`, the comments and the macro `CHAIN.B` are the spec's own notation. -/

namespace Sys2Proof.Machine

/-- A token of a line. -/
inductive Token where
  | word (w : List Char)   -- a mnemonic, NONINT, or a Host name
  | num (v : Int)          -- an integer literal
  | bytes (d : Bytes)      -- "text" or x"hh hh ..."
  | comma | equals | colon | openSeq | closeSeq
  deriving DecidableEq, Repr

/-! ### Tokens -/

/-- The brace that opens a sequence. -/
def openBrace : Char := Char.ofNat 123

/-- The brace that closes a sequence. -/
def closeBrace : Char := Char.ofNat 125

/-- The double quote. -/
def quoteMark : Char := Char.ofNat 34

/-- A character of a word after its first letter. -/
def isWordChar (c : Char) : Bool := c.isAlphanum || c == '.'

/-- The value of a hexadecimal digit. -/
def hexDigit? (c : Char) : Option Nat :=
  if c.isDigit then some (c.toNat - 48)
  else if 'a' ≤ c ∧ c ≤ 'f' then some (c.toNat - 87)
  else if 'A' ≤ c ∧ c ≤ 'F' then some (c.toNat - 55)
  else none

/-- The number that digits spell in a base, if each is a digit of that base and there is one at least. -/
def numberOf (base : Nat) : List Char → Option Nat
  | [] => none
  | cs => cs.foldl (fun acc c => match acc, hexDigit? c with
      | some n, some d => if d < base then some (n * base + d) else none
      | _, _ => none) (some 0)

/-- A literal without its sign, decimal or `0x` hexadecimal (R74). -/
def literalOf : List Char → Option Nat
  | '0' :: 'x' :: cs => numberOf 16 cs
  | cs => numberOf 10 cs

/-- The ASCII bytes of a text (R75). -/
def asciiBytes (cs : List Char) : Option Bytes :=
  cs.mapM fun c => if c.toNat < 128 then some (BitVec.ofNat 8 c.toNat) else none

/-- The bytes of `hh hh ...`: pairs of hexadecimal digits with single spaces between them (R75). -/
def hexBytes : List Char → Option Bytes
  | [] => some []
  | [a, b] => match hexDigit? a, hexDigit? b with
    | some x, some y => some [BitVec.ofNat 8 (16 * x + y)]
    | _, _ => none
  | a :: b :: ' ' :: c :: cs => match hexDigit? a, hexDigit? b, hexBytes (c :: cs) with
    | some x, some y, some d => some (BitVec.ofNat 8 (16 * x + y) :: d)
    | _, _, _ => none
  | _ => none

/-- The characters up to the closing double quote, and what follows it. -/
def untilQuote : List Char → Option (List Char × List Char)
  | [] => none
  | c :: cs => if c = quoteMark then some ([], cs) else (untilQuote cs).map fun r => (c :: r.1, r.2)

/-- The tokens of a line; a comment starts with `;` (R75). The fuel is the number of characters. -/
def tokens : Nat → List Char → Option (List Token)
  | _, [] => some []
  | 0, _ :: _ => none
  | fuel + 1, c :: cs =>
    if c = ' ' then tokens fuel cs
    else if c = ';' then some []
    else if c = ',' then (tokens fuel cs).map (.comma :: ·)
    else if c = '=' then (tokens fuel cs).map (.equals :: ·)
    else if c = ':' then (tokens fuel cs).map (.colon :: ·)
    else if c = openBrace then (tokens fuel cs).map (.openSeq :: ·)
    else if c = closeBrace then (tokens fuel cs).map (.closeSeq :: ·)
    else if c = quoteMark then match untilQuote cs with
      | none => none
      | some (t, rest) => match asciiBytes t, tokens fuel rest with
        | some d, some ts => some (.bytes d :: ts)
        | _, _ => none
    else if c = 'x' ∧ cs.head? = some quoteMark then match untilQuote cs.tail with
      | none => none
      | some (t, rest) => match hexBytes t, tokens fuel rest with
        | some d, some ts => some (.bytes d :: ts)
        | _, _ => none
    else if c = '-' then match literalOf (cs.takeWhile isWordChar), tokens fuel (cs.dropWhile isWordChar) with
      | some n, some ts => some (.num (-n) :: ts)
      | _, _ => none
    else if c.isDigit then
      match literalOf (c :: cs.takeWhile isWordChar), tokens fuel (cs.dropWhile isWordChar) with
      | some n, some ts => some (.num n :: ts)
      | _, _ => none
    else if c.isAlpha then
      (tokens fuel (cs.dropWhile isWordChar)).map (.word (c :: cs.takeWhile isWordChar) :: ·)
    else none

/-! ### Operands -/

/-- An integer literal lies in [-2^63, 2^63 - 1] (R74). -/
def i64OfInt (v : Int) : Option I64 :=
  if -(2 ^ 63) ≤ v ∧ v ≤ 2 ^ 63 - 1 then some (BitVec.ofInt 64 v) else none

/-- The number of a Host name `hN` (R75). -/
def hostName? : List Char → Option Nat
  | 'h' :: cs => numberOf 10 cs
  | _ => none

/-- `<prior>`: a literal or a Host name (R74). -/
def priorOperand : Token → Option PriorOperand
  | .num v => (i64OfInt v).map .lit
  | .word w => (hostName? w).map .name
  | _ => none

/-- A key or a value of `<seq>`: a literal, or the word `NONINT` (R75). -/
def taggedOperand : Token → Option TaggedValue
  | .num v => (i64OfInt v).map .int
  | .word w => if w = "NONINT".toList then some .nonint else none
  | _ => none

/-- The entries of `<seq>` after its opening brace, in frame order, and what follows the closing one (R75). -/
def seqOperand : List Token → Option (List Entry × List Token)
  | .closeSeq :: ts => some ([], ts)
  | k :: .colon :: v :: .closeSeq :: ts => match taggedOperand k, taggedOperand v with
    | some k', some v' => some ([{ key := k', val := v' }], ts)
    | _, _ => none
  | k :: .colon :: v :: .comma :: t :: ts =>
    if t = .closeSeq then none
    else match taggedOperand k, taggedOperand v, seqOperand (t :: ts) with
      | some k', some v', some (es, rest) => some ({ key := k', val := v' } :: es, rest)
      | _, _, _ => none
  | _ => none

/-- The byte strings of `CHAIN.B` after its first one (R76). -/
def moreBytes : List Token → Option (List Bytes)
  | [] => some []
  | .comma :: .bytes d :: ts => (moreBytes ts).map (d :: ·)
  | _ => none

/-- A command: its mnemonic and then its operands (R74, R76). -/
def parseCommand : List Token → Option HostCommand
  | .word w :: ts =>
    if w = "VALUE.B".toList then match ts with
      | [.bytes d] => some (.valueB d)
      | _ => none
    else if w = "VALUE.S".toList then match ts with
      | .num v :: .comma :: .openSeq :: rest => match i64OfInt v, seqOperand rest with
        | some e, some (es, []) => some (.valueS e es)
        | _, _ => none
      | _ => none
    else if w = "EXTEND.B".toList then match ts with
      | [.bytes d, .comma, p] => (priorOperand p).map (.extendB d)
      | _ => none
    else if w = "EXTEND.S".toList then match ts with
      | .num v :: .comma :: .openSeq :: rest => match i64OfInt v, seqOperand rest with
        | some e, some (es, [.comma, p]) => (priorOperand p).map (.extendS e es)
        | _, _ => none
      | _ => none
    else if w = "CHAIN.B".toList then match ts with
      | p :: .comma :: .bytes d :: rest => match priorOperand p, moreBytes rest with
        | some q, some ds => some (.chainB q d ds)
        | _, _ => none
      | _ => none
    else none
  | _ => none

/-- A line of a Host program: `hN = <command>`, or a command alone (R75). -/
def parseLine : List Token → Option HostLine
  | .word w :: .equals :: ts => match hostName? w, parseCommand ts with
    | some h, some c => some { bind := some h, cmd := c }
    | _, _ => none
  | ts => (parseCommand ts).map fun c => { bind := none, cmd := c }

/-- The assembler: one line of text (R74 to R76); none where the text spells no command. DESIGN CHOICE (log entry 23):
a line that holds no token, only blanks or a comment, spells no command either; `assembleProgram` leaves it out. -/
def assembleLine (text : List Char) : Option HostLine := (tokens text.length text).bind parseLine

/-- The assembler on a whole program text, line by line; none where some line is not in the syntax. DESIGN CHOICE (log
entry 23): a line that holds only blanks or a comment (R75) is legal and is left out. -/
def assembleProgram : List (List Char) → Option (List HostLine)
  | [] => some []
  | text :: rest =>
    if tokens text.length text = some [] then assembleProgram rest
    else match assembleLine text, assembleProgram rest with
      | some l, some ls => some (l :: ls)
      | _, _ => none

end Sys2Proof.Machine
end

