-- ==== Sys2Proof/Tests/Slice0.lean ====
section
/-! SUPPORT. The model's own tests. Expected results are the spec's: the vectors of 95_test_vectors.md, named in each
comment, and the frames of 30_encoding.md R77. The witnesses at the end meet the hypotheses of the statements. -/

namespace Sys2Proof.Tests

open Sys2Proof Sys2Proof.Machine

set_option maxRecDepth 8000

/-! ### Helpers -/

/-- The responses after one step of an instance that was just reset and has one frame issued. -/
def answer (f : Bytes) : List Response :=
  match step { State.reset with issued := [.issue f] } with
  | .next t => t.delivered
  | _ => []

/-- Why that step is refused, if it is. -/
def refusal (f : Bytes) : Option FrameRefusal :=
  match step { State.reset with issued := [.issue f] } with
  | .refused (.frame r) => some r
  | _ => none

/-- The command a frame spells under the parameters of reset. -/
def spelled (f : Bytes) : Option Instr := (decode Config.params f).toOption

/-- An entry of two integers. -/
def entry (k v : I64) : Entry := { key := .int k, val := .int v }

/-- Eight bytes, little-endian, of a small number. -/
def eight (b : Byte) : Bytes := [b, 0, 0, 0, 0, 0, 0, 0]

/-! ### WellFormed refuses ill-formed terms -/

/-- Bounds of three data bytes and two entries. -/
def tinyParams : Params := { maxDataLen := 3, maxSeqLen := 2, errorSelect := .canonical }

theorem test_wellFormed_data_over_bound : WellFormed tinyParams (.valueB [1, 2, 3, 4]) = false := by decide
theorem test_wellFormed_data_over_bound_extend : WellFormed tinyParams (.extendB [1, 2, 3, 4] 0) = false := by decide
theorem test_wellFormed_data_at_bound : WellFormed tinyParams (.valueB [1, 2, 3]) = true := by decide
theorem test_wellFormed_seq_over_bound :
    WellFormed tinyParams (.valueS 1 [entry 1 1, entry 2 2, entry 3 3]) = false := by decide
theorem test_wellFormed_duplicate_key : WellFormed tinyParams (.extendS 1 [entry 1 5, entry 1 6] 0) = false := by decide
theorem test_wellFormed_nonint_keys_not_compared :
    WellFormed tinyParams (.valueS 1 [⟨.nonint, .int 1⟩, ⟨.nonint, .int 2⟩]) = true := by decide

/-! ### Decoding frames written out byte by byte (R61 to R67, R77, V23) -/

/-- R77, first frame. -/
theorem test_decode_valueB : spelled ([0x00, 0x00, 0x00, 0x00] ++ [0x09, 0, 0, 0, 0, 0, 0, 0] ++
    [0x31, 0x32, 0x33, 0x34, 0x35, 0x36, 0x37, 0x38, 0x39]) =
    some (.valueB [0x31, 0x32, 0x33, 0x34, 0x35, 0x36, 0x37, 0x38, 0x39]) := by decide

/-- P2, h1: entries in descending key order stay in frame order. -/
theorem test_decode_valueS : spelled ([0x01, 0, 0, 0] ++ [0x02, 0, 0, 0, 0, 0, 0, 0] ++ [0x02, 0, 0, 0, 0, 0, 0, 0] ++
    [0, 0x02, 0, 0, 0, 0, 0, 0, 0] ++ [0, 0x04, 0x03, 0, 0, 0, 0, 0, 0] ++
    [0, 0x01, 0, 0, 0, 0, 0, 0, 0] ++ [0, 0x02, 0x01, 0, 0, 0, 0, 0, 0]) =
    some (.valueS 2 [entry 2 0x0304, entry 1 0x0102]) := by decide

/-- P1, h2. -/
theorem test_decode_extendB : spelled ([0x02, 0, 0, 0] ++ [0xEE, 0xF4, 0x3A, 0xF6, 0, 0, 0, 0] ++
    [0x05, 0, 0, 0, 0, 0, 0, 0] ++ [0x35, 0x36, 0x37, 0x38, 0x39]) =
    some (.extendB [0x35, 0x36, 0x37, 0x38, 0x39] 0xF63AF4EE) := by decide

/-- P3, h2: ESIZE before PRIOR. -/
theorem test_decode_extendS : spelled ([0x03, 0, 0, 0] ++ [0x08, 0, 0, 0, 0, 0, 0, 0] ++
    [0xFF, 0xFF, 0xFF, 0xFF, 0, 0, 0, 0] ++ [0x01, 0, 0, 0, 0, 0, 0, 0] ++
    [0, 0x01, 0, 0, 0, 0, 0, 0, 0] ++ [0, 0x08, 0x07, 0x06, 0x05, 0x04, 0x03, 0x02, 0x01]) =
    some (.extendS 8 [entry 1 0x0102030405060708] 0xFFFFFFFF) := by decide

/-- R65: a NONINT tagged value, and a negative i64 (R64). -/
theorem test_decode_nonint : spelled ([1, 0, 0, 0] ++ eight 1 ++ eight 1 ++
    [1, 0, 0, 0, 0, 0, 0, 0, 0] ++ [0, 0xFB, 0xFF, 0xFF, 0xFF, 0xFF, 0xFF, 0xFF, 0xFF]) =
    some (.valueS 1 [⟨.nonint, .int (-5)⟩]) := by decide

/-- V23: the refused frames, each with its reason. -/
theorem test_refused_frames :
    refusal ([4, 0, 0, 0] ++ eight 0) = some .reservedHeaderBits ∧
    refusal ([4, 0, 0, 0] ++ eight 5) = some .reservedHeaderBits ∧
    refusal ([1, 0, 0, 0] ++ eight 1 ++ eight 1 ++ 2 :: eight 1 ++ 0 :: eight 5) = some .reservedTag ∧
    refusal ([1, 0, 0, 0] ++ eight 1 ++ eight 1 ++ 1 :: eight 1 ++ 0 :: eight 5) = some .nonintPayload ∧
    refusal ([0, 0, 0, 0] ++ eight 5 ++ [0x31, 0x32]) = some .truncated ∧
    refusal ([0, 0, 0, 0] ++ eight 0 ++ [0xAA]) = some .trailingBytes ∧
    refusal ([1, 0, 0, 0] ++ eight 1 ++ eight 2 ++ 0 :: eight 1 ++ 0 :: eight 5 ++ 0 :: eight 1 ++ 0 :: eight 6)
      = some .duplicateKey := by decide

/-- R71: the two bounds, and a COUNT far beyond the frame is TRUNCATED. -/
theorem test_refused_lengths :
    decode tinyParams ([0, 0, 0, 0] ++ eight 4 ++ [1, 2, 3, 4]) = .error .overMaxDataLen ∧
    decode tinyParams ([1, 0, 0, 0] ++ eight 1 ++ eight 3) = .error .overMaxSeqLen ∧
    decode Config.params ([1, 0, 0, 0] ++ eight 1 ++ List.replicate 8 0xFF) = .error .truncated ∧
    decode Config.params [0, 0] = .error .truncated := ⟨rfl, rfl, rfl, rfl⟩

/-- spec/opcode_table.json: the four words with operand fields of zeros. -/
theorem test_table_words :
    decodeTableWord 32 0 = some (.valueB []) ∧ decodeTableWord 32 1 = some (.valueS 0 []) ∧
    decodeTableWord 32 2 = some (.extendB [] 0) ∧ decodeTableWord 32 3 = some (.extendS 0 [] 0) ∧
    decodeTableWord 32 4 = none := by decide

/-- The probe's very next step runs the word: EXTEND.S with element size 0 (V11). -/
theorem test_fetchWord_runs : (match step (State.reset.withFetchWord 32 3) with
    | .next t => t.delivered
    | _ => []) = [.err .invalidElementSize] := by decide

/-! ### The engine (E, L rows; R91) -/

theorem test_engine_short_inputs :
    engineExtend 0 [0x01] = 0xA016D052 ∧ engineExtend 0 [0x80] = 0xD08B6829 ∧
    engineExtend 0 [0x61, 0x62, 0x63] = 0x364B3FB7 ∧ engineExtend 0 [0, 0, 0, 0] = 0x48674BC7 := by decide

/-- L5: the prior matters. -/
theorem test_engine_prior :
    engineExtend 0xDEADBEEF [0x31, 0x32, 0x33, 0x34, 0x35, 0x36, 0x37, 0x38, 0x39] = 0xDD05F9CD := by decide

theorem test_table_and_serial_step :
    tableStep 0x12345678 0x9A = byteStep 0x12345678 0x9A ∧ serialByte 0x12345678 0x9A = byteStep 0x12345678 0x9A ∧
    tableEntry 1 = 0xF26B8303 ∧ crcTable[255]? = some 0xAD7D5351 := by decide

/-! ### The commands, one step each -/

/-- V1b. -/
theorem test_valueB : answer ([0, 0, 0, 0] ++ eight 9 ++ [0x31, 0x32, 0x33, 0x34, 0x35, 0x36, 0x37, 0x38, 0x39]) =
    [.ok 0xE3069283] := by decide

/-- V1a. -/
theorem test_valueB_empty : answer ([0, 0, 0, 0] ++ eight 0) = [.ok 0] := by decide

/-- V5: an unsorted frame is walked in ascending key order. -/
theorem test_valueS_sorts : answer (encode (.valueS 2 [entry 2 0x0304, entry 1 0x0102])) = [.ok 0x0F9B6810] := by decide

/-- V17: key 2 comes first, so its range error is reported. -/
theorem test_valueS_first_error_by_key :
    answer (encode (.valueS 1 [⟨.int 5, .nonint⟩, entry 2 300])) = [.err (.valueOutOfRange .one)] := by decide

/-- V18, P1. -/
theorem test_extendB : answer (encode (.extendB [0x35, 0x36, 0x37, 0x38, 0x39] 0xF63AF4EE)) = [.ok 0xE3069283] := by
  decide

/-- V14: -1 is not 0xFFFFFFFF, and 2^32 is not 0. -/
theorem test_extendB_prior_out_of_range :
    answer (encode (.extendB [] (-1))) = [.err .checksumOutOfRange] ∧
    answer (encode (.extendB [] 4294967296)) = [.err .checksumOutOfRange] ∧
    answer (encode (.extendB [] 4294967295)) = [.ok 0xFFFFFFFF] := by decide

/-- V12: 255 and -1 are the same byte at size 1. -/
theorem test_extendS : answer (encode (.extendS 1 [entry 1 255, entry 2 (-1)] 0xE3069283)) = [.ok 0x43483D86] := by
  decide

/-- V17, first two rows: the prior, then the element size. -/
theorem test_extendS_precedence :
    answer (encode (.extendS 3 [⟨.nonint, .nonint⟩] (-5))) = [.err .checksumOutOfRange] ∧
    answer (encode (.extendS 3 [⟨.nonint, .int 1⟩] 0)) = [.err .invalidElementSize] := by decide

/-! ### Marshaling (V6 to V13, V15, V16, V24) -/

/-- V8, V9, V13: the encodings at sizes 4 and 8. -/
theorem test_encodeLE :
    encodeLE (-2147483648) .four = [0, 0, 0, 0x80] ∧ encodeLE 0x12345678 .four = [0x78, 0x56, 0x34, 0x12] ∧
    encodeLE (-2) .eight = [0xFE, 0xFF, 0xFF, 0xFF, 0xFF, 0xFF, 0xFF, 0xFF] := by decide

/-- V7, V8, V10: one beyond each bound fails, the bound passes. -/
theorem test_range_boundaries :
    (inRange .one 255 && inRange .one (-128) && inRange .two 65535 && inRange .four (-2147483648)) = true ∧
    (inRange .one 256 || inRange .one (-129) || inRange .two (-32769) || inRange .four 4294967296) = false := by decide

/-- V15, V16, V17 rows 3 and 4. -/
theorem test_error_kinds :
    commandResponse (.valueS 1 [entry 0 5]) = .err .nonPositiveKey ∧
    commandResponse (.valueS 1 [⟨.nonint, .int 5⟩]) = .err .nonIntegerKey ∧
    commandResponse (.valueS 8 [entry 1 0, ⟨.int 2, .nonint⟩]) = .err .nonIntegerValue ∧
    commandResponse (.valueS 1 [entry 0 1, ⟨.nonint, .int 1⟩, entry 1 999]) = .err .nonIntegerKey ∧
    commandResponse (.valueS 1 [entry 1 999, entry 0 1]) = .err .nonPositiveKey := by decide

/-- V24 and V15: a gap, and the greatest key. -/
theorem test_gaps_and_large_keys :
    commandResponse (.valueS 1 [entry 1 0x11, entry 3 0x22]) = .ok 0x1C80E00D ∧
    commandResponse (.valueS 1 [entry 9223372036854775807 0x22, entry 1 0x11]) = .ok 0x1C80E00D := by decide

/-- V5, V4 (R150): the order of positions matters. -/
theorem test_order_sensitivity :
    commandResponse (.valueS 2 [entry 1 0x0304, entry 2 0x0102]) = .ok 0x0C4509AA := by decide

/-- EBUF and ESZ after a two-byte value (R121): the upper six bytes are as before. -/
theorem test_marshal_registers :
    (marshalSeq 2 [entry 1 0x0102] { State.reset with ebuf := [9, 9, 9, 9, 9, 9, 9, 9] }).1 =
    { State.reset with esz := .two, ebuf := [2, 1, 9, 9, 9, 9, 9, 9] } := by decide

/-! ### Responses (R68) -/

/-- The wire columns of V1b, V10a, V14. -/
theorem test_response_frames :
    Response.frame (.ok 0xE3069283) = [0x00, 0x83, 0x92, 0x06, 0xE3] ∧
    Response.frame (.err (.valueOutOfRange .one)) = [0x05, 0x01] ∧
    Response.frame (.err .checksumOutOfRange) = [0x06] ∧
    Response.ofFrame [0x07] = none ∧ Response.ofFrame [0x05, 0x03] = none := by decide

/-! ### The machine's steps -/

/-- An accepted VALUE.B "" on a reset instance, with a frame issued behind it. -/
def busyState : State :=
  { State.reset with phase := .busy, outstanding := some (.valueB []), issued := [.issue (encode (.valueB [0x31]))] }

/-- R184: the issued frame waits while the instance answers what it holds. -/
theorem test_busy_answers_first : (match step busyState with
    | .next t => (t.delivered, t.issued, t.phase)
    | _ => ([], [], .busy)) = ([.ok 0], busyState.issued, .idle) := by decide

/-- R181: reset while BUSY delivers nothing. -/
theorem test_reset_while_busy : (match step { busyState with issued := [.reset] } with
    | .next t => some t
    | _ => none) = some State.reset := by decide

/-- R27 rules this state out; the model stops. -/
theorem test_busy_without_command : (match step { State.reset with phase := .busy } with
    | .fault .busyWithoutCommand => true
    | _ => false) = true := by decide

/-! ### Host programs (P1, P4) and the assembler (R74 to R76) -/

/-- The text of a quoted string. -/
def quoted (s : List Char) : List Char := quoteMark :: s ++ [quoteMark]

/-- P1 and R76: CHAIN.B 0, "1234", "56789". -/
theorem test_chain : (issueChain [0x31, 0x32, 0x33, 0x34] [[0x35, 0x36, 0x37, 0x38, 0x39]] 0 State.reset).toOption.map
    (·.1) = some (.ok 0xE3069283) := by decide

/-- P4: nothing can be chained from an error. -/
theorem test_no_chain_from_error :
    (issueHostCommand [(2, .err (.valueOutOfRange .one))] State.reset (.extendB [] (.name 2))) =
      .error (.illegalPrior 2) := rfl

theorem test_assemble_extendB :
    assembleLine ("h2 = EXTEND.B ".toList ++ quoted "59".toList ++ ", h1 ; chained".toList) =
      some { bind := some 2, cmd := .extendB [0x35, 0x39] (.name 1) } := by decide

theorem test_assemble_valueS :
    assembleLine ("VALUE.S 2, ".toList ++ [openBrace] ++ "2: 0x0304, 1: NONINT".toList ++ [closeBrace]) =
      some { bind := none, cmd := .valueS 2 [⟨.int 2, .int 0x0304⟩, ⟨.int 1, .nonint⟩] } := by decide

theorem test_assemble_chain :
    assembleLine ("h1=CHAIN.B -0x10,x".toList ++ quoted "FF 0a".toList ++ ",".toList ++ quoted []) =
      some { bind := some 1, cmd := .chainB (.lit (-16)) [0xFF, 0x0A] [[]] } := by decide

/-- R74: a literal beyond 2^63 - 1 spells no line. -/
theorem test_assemble_literal_range :
    assembleLine ("EXTEND.B ".toList ++ quoted [] ++ ", 9223372036854775808".toList) = none := by decide

/-- P1, its last lines: a line of comment and a line of blanks spell no command. -/
theorem test_assemble_program :
    assembleProgram [("h3 = VALUE.B  ".toList ++ quoted "1".toList), "; Host: if h2 == h3".toList, "  ".toList] =
      some [{ bind := some 3, cmd := .valueB [0x31] }] := by decide

/-! ### Witnesses: states and operands that meet the hypotheses of the statements, clause by clause -/

/-- Two entries, in descending order of position. -/
def twoEntries : List Entry := [entry 2 0x0304, entry 1 0x0102]

/-- Reset under `ANY_APPLICABLE`. -/
def anyState : State :=
  { State.reset with params := { maxDataLen := 3, maxSeqLen := 2, errorSelect := .anyApplicable } }

theorem witness_ElementSizeMustBeOneTwoFourEight :
    (esizeOfInt (3 : I64).toInt = none ∧ WellFormed State.reset.params (.valueS 3 [entry 1 5]) = true ∧
      seqErrors 3 [entry 1 5] = [.invalidElementSize]) ∧
    (esizeOfInt (0 : I64).toInt = none ∧ WellFormed anyState.params (.extendS 0 [] 0xFFFFFFFF) = true ∧
      0 ≤ (0xFFFFFFFF : I64).toInt ∧ (0xFFFFFFFF : I64).toInt ≤ 0xFFFFFFFF) ∧
    esizeOfInt (8 : I64).toInt = some .eight := by decide

theorem witness_ValueRangeOfEachElementSize :
    (0 < (1 : I64).toInt) ∧ (rangeLo .one ≤ (255 : I64).toInt ∧ (255 : I64).toInt ≤ rangeHi .one) ∧
    rangeHi .one < (256 : I64).toInt ∧ (-129 : I64).toInt < rangeLo .one := by decide

theorem witness_EightByteRangeNeverFails :
    ∃ t, exec (.valueS 8 [entry 1 0x8000000000000000]) State.reset = .next t := ⟨_, rfl⟩

theorem witness_ExtendIsAffineInData : ([0x61, 0x62] : Bytes).length = ([1, 2] : Bytes).length := by decide

theorem witness_EntryOrderHasNoEffect :
    (∃ m, marshalSeq 2 twoEntries State.reset = (m, .ok [2, 1, 4, 3])) ∧ esizeOfInt (2 : I64).toInt = some .two ∧
    twoEntries.Perm [entry 1 0x0102, entry 2 0x0304] ∧ keysDistinct twoEntries = true := ⟨⟨_, rfl⟩, by decide⟩

theorem witness_EncodeLEGivesTheLowBytesInOrder :
    0 < ESize.one.toNat ∧ 7 < ESize.eight.toNat ∧ esizeOfInt (1 : I64).toInt = some .one ∧
    ∃ m, marshalSeq 1 [entry 1 255, entry 2 (-128)] State.reset = (m, .ok [0xFF, 0x80]) :=
  ⟨by decide, by decide, by decide, _, rfl⟩

theorem witness_GapsContributeNothing :
    (sortByPosition [entry 3 7, entry 1 5]).map (·.val) = (sortByPosition [entry 1 5, entry 2 7]).map (·.val) ∧
    seqErrors 1 [entry 3 7, entry 1 5] = [] ∧ seqErrors 1 [entry 1 5, entry 2 7] = [] := by decide

theorem witness_SignedAndUnsignedEncodeAlike :
    (rangeLo .one ≤ -128 ∧ (-128 : Int) < 0) ∧ (rangeLo .eight ≤ -1 ∧ (-1 : Int) < 0) := by decide

theorem witness_MarshalSeqChecksThenEncodes :
    seqCanonicalError 1 [entry 1 256] = some (.valueOutOfRange .one) ∧ seqCanonicalError 2 twoEntries = none := by
  decide

theorem witness_MarshalSeqLeavesLastValueInEbuf :
    esizeOfInt (2 : I64).toInt = some .two ∧
    marshalSeq 2 twoEntries State.reset =
      ({ State.reset with esz := .two, ebuf := [4, 3, 0, 0, 0, 0, 0, 0] }, .ok [2, 1, 4, 3]) ∧
    (sortByPosition twoEntries).getLast? = some (entry 2 0x0304) := ⟨by decide, rfl, by decide⟩

theorem witness_MarshalSeqOutputLength :
    marshalSeq 2 twoEntries State.reset =
      ({ State.reset with esz := .two, ebuf := [4, 3, 0, 0, 0, 0, 0, 0] }, .ok [2, 1, 4, 3]) ∧
    (sortByPosition twoEntries)[0]? = some (entry 1 0x0102) ∧
    (sortByPosition twoEntries)[1]? = some (entry 2 0x0304) := ⟨rfl, by decide, by decide⟩

theorem witness_EmptySequenceLeavesTheChecksum :
    esizeOfInt (4 : I64).toInt = some .four ∧ (0 ≤ (0 : I64).toInt ∧ (0 : I64).toInt ≤ 0xFFFFFFFF) ∧
    0 ≤ (0xFFFFFFFF : I64).toInt ∧ (0xFFFFFFFF : I64).toInt ≤ 0xFFFFFFFF := by decide

theorem witness_StreamingEqualsWholeSequence : seqCanonicalError 2 twoEntries = none := by decide

theorem witness_StructuredAndByteStringPathsAgree :
    (∃ m, marshalSeq 2 twoEntries State.reset = (m, .ok [2, 1, 4, 3])) ∧
    WellFormed State.reset.params (.valueS 2 twoEntries) = true ∧
    WellFormed State.reset.params (.valueB [2, 1, 4, 3]) = true := ⟨⟨_, rfl⟩, by decide⟩

theorem witness_ValueBReturnsTheChecksum :
    WellFormed State.reset.params (.valueB [0x31]) = true ∧ WellFormed tinyParams (.valueB [1, 2, 3]) = true := by decide

theorem witness_ValueSReturnsTheChecksumOrTheError :
    (esizeOfInt (2 : I64).toInt = some .two ∧ seqCanonicalError 2 twoEntries = none) ∧
    State.reset.params.errorSelect = .canonical ∧ seqCanonicalError 3 [] = some .invalidElementSize := by decide

theorem witness_ExtendBReturnsTheChecksumOrTheError :
    WellFormed State.reset.params (.extendB [0x31] 0xFFFFFFFF) = true ∧
    WellFormed State.reset.params (.extendB [] (-1)) = true ∧
    (0 ≤ (0xFFFFFFFF : I64).toInt ∧ (0xFFFFFFFF : I64).toInt ≤ 0xFFFFFFFF) ∧
    (-1 : I64).toInt < 0 ∧ 0xFFFFFFFF < (0x100000000 : I64).toInt := by decide

theorem witness_ExtendSReturnsTheChecksumOrTheError :
    (-1 : I64).toInt < 0 ∧
    (0 ≤ (0 : I64).toInt ∧ (0 : I64).toInt ≤ 0xFFFFFFFF ∧ esizeOfInt (2 : I64).toInt = some .two ∧
      seqCanonicalError 2 twoEntries = none) ∧
    State.reset.params.errorSelect = .canonical ∧
    seqCanonicalError 1 [entry 0 1] = some .nonPositiveKey := by decide

theorem witness_ByteStringCommandsAsWholeNextStates :
    (0 ≤ (0xFFFFFFFF : I64).toInt ∧ (0xFFFFFFFF : I64).toInt ≤ 0xFFFFFFFF) ∧
    (-1 : I64).toInt < 0 ∧ 0xFFFFFFFF < (0x100000000 : I64).toInt := by decide

theorem witness_CheckPriorKeepsTheNumber :
    (0 ≤ (0 : I64).toInt ∧ (0xFFFFFFFF : I64).toInt ≤ 0xFFFFFFFF) ∧
    ((-1 : I64).toInt < 0 ∨ 0xFFFFFFFF < (-1 : I64).toInt) ∧ 0xFFFFFFFF < (0x100000000 : I64).toInt := by decide

theorem witness_EveryCommandGetsExactlyOneResponse :
    WellFormed State.reset.params (.extendS 8 twoEntries (-1)) = true ∧
    WellFormed anyState.params (.valueS 3 [⟨.nonint, .int 0⟩]) = true := by decide

theorem witness_ChainedCommandsChecksumTheConcatenation :
    ∃ t c1, exec ((Payload.bytes [0x31]).extend 0) State.reset = .next t ∧
      t.delivered = State.reset.delivered ++ [.ok c1] ∧
      canonicalError ((Payload.seq 2 twoEntries).extend (priorOfChecksum c1)) = none :=
  ⟨_, 0x90F599E3, rfl, by decide, by decide⟩

theorem witness_ResponseDependsOnTheCommandAlone :
    (State.reset.params.errorSelect = .canonical ∧ busyState.params.errorSelect = .canonical) ∧
    anyState.params.errorSelect = anyState.params.errorSelect ∧
    anyState.choices = { anyState with acc := 7 }.choices := by decide

theorem witness_CommandsLeaveEverythingElseUnchanged :
    (∃ t, exec (.extendB [] (-1)) State.reset = .next t ∧
      ∃ k, t.delivered = State.reset.delivered ++ [.err k]) ∧
    (∃ t, exec (.valueS 2 twoEntries) State.reset = .next t ∧
      ∃ c, t.delivered = State.reset.delivered ++ [.ok c]) :=
  ⟨⟨_, rfl, .checksumOutOfRange, by decide⟩, ⟨_, rfl, 0x0F9B6810, by decide⟩⟩

theorem witness_ErrorExactlyWhereSomeErrorApplies :
    (∃ t r, exec (.valueS 1 [entry 0 1]) State.reset = .next t ∧ Answers State.reset t r) ∧
    ∃ t r, exec (.valueB [1]) State.reset = .next t ∧ Answers State.reset t r :=
  ⟨⟨_, .err .nonPositiveKey, rfl, ⟨rfl, rfl, rfl, by decide, rfl, rfl⟩⟩,
    ⟨_, .ok 0xA016D052, rfl, ⟨rfl, rfl, rfl, by decide, rfl, rfl⟩⟩⟩

theorem witness_CoreNeverRaisesBadSignature :
    ∃ t r, exec (.extendB [] 0x100000000) State.reset = .next t ∧ Answers State.reset t r :=
  ⟨_, .err .checksumOutOfRange, rfl, ⟨rfl, rfl, rfl, by decide, rfl, rfl⟩⟩

theorem witness_CanonicalPrecedenceOfErrors :
    State.reset.params.errorSelect = .canonical ∧
    canonicalError (.extendS 3 [] (-1)) = some .checksumOutOfRange ∧
    esizeOfInt (1 : I64).toInt = some .one ∧ (∀ e ∈ [entry 1 999, entry 0 1], e.key ≠ .nonint) ∧
    (∃ e ∈ [entry 1 999, entry 0 1], hasNonPositiveKey e = true) ∧
    0 ≤ (0xFFFFFFFF : I64).toInt ∧ (0xFFFFFFFF : I64).toInt ≤ 0xFFFFFFFF := by decide

theorem witness_AnyApplicableReportsAnApplicableError :
    anyState.params.errorSelect = .anyApplicable ∧
    .checksumOutOfRange ∈ applicable (.extendS 3 [⟨.nonint, .int 1⟩] (-1)) := by decide

theorem witness_HeaderWordSelectsTheCommand :
    header? ([4, 0, 0, 0] : Bytes) = some 4 ∧ header? ([0, 0, 0, 0x80] : Bytes) = some 0x80000000 ∧
    decode Config.params ([2, 0, 0, 0] ++ eight 0 ++ eight 0) = .ok (.extendB [] 0) :=
  ⟨by decide, by decide, rfl⟩

theorem witness_ResponseFramesAreReadBack :
    (Response.ok 0 ≠ .err .badSignature) ∧ Response.err (.valueOutOfRange .four) ≠ .err .badSignature := by decide

theorem witness_DuplicateIntegerKeysAreRefused :
    (seqFits tinyParams [entry 1 5, entry 1 6] = true ∧ keysDistinct [entry 1 5, entry 1 6] = false) ∧
    (([.nonint] : List TaggedValue).length < 2 * 1 ∧ 2 ≤ (2 : Byte).toNat ∧ ([0, 0, 0, 0, 0, 0, 0, 1] : Bytes).length = 8 ∧
      ∃ b ∈ ([0, 0, 0, 0, 0, 0, 0, 1] : Bytes), b ≠ 0) ∧
    refusalList tinyParams [4, 0, 0, 0] = [] ++ (.reservedHeaderBits, true) :: (refusalList tinyParams [4, 0, 0, 0]).tail ∧
    ∀ e ∈ [(⟨.nonint, .int 1⟩ : Entry), ⟨.nonint, .int 1⟩], e.key = .nonint := by decide

theorem witness_CommandsOverTheBoundsAreRefused :
    (tinyParams.maxDataLen < ([1, 2, 3, 4] : Bytes).length ∧ ([1, 2, 3, 4] : Bytes).length < 2 ^ 64) ∧
    tinyParams.maxSeqLen < [entry 1 1, entry 2 1, entry 3 1].length ∧
    [entry 1 1, entry 2 1, entry 3 1].length < 2 ^ 64 := by decide

theorem witness_WrongFrameLengthsAreRefused :
    WellFormed tinyParams (.extendS 1 [entry 1 5] 0) = true ∧ 45 < (encode (.extendS 1 [entry 1 5] 0)).length ∧
    ([0xAA] : Bytes) ≠ [] := by decide

theorem witness_DecodeUndoesEncode :
    WellFormed tinyParams (.valueB [1, 2, 3]) = true ∧ WellFormed tinyParams (.valueS (-1) twoEntries) = true ∧
    WellFormed tinyParams (.extendB [] (-1)) = true ∧
    WellFormed tinyParams (.extendS 8 [⟨.nonint, .nonint⟩] 7) = true := by decide

theorem witness_EncodeUndoesDecode :
    decode Config.params ([1, 0, 0, 0] ++ eight 1 ++ eight 1 ++ 1 :: eight 0 ++ 0 :: eight 5) =
      .ok (.valueS 1 [⟨.nonint, .int 5⟩]) := rfl

theorem witness_StepRunsTheDecodedCommand :
    (State.reset.phase = .idle ∧ decode State.reset.params (encode (.valueB [])) = .ok (.valueB [])) ∧
    busyState.phase = .busy ∧ busyState.pending = none ∧ busyState.outstanding = some (.valueB []) ∧
    busyState.issued.head? ≠ some .reset := ⟨⟨rfl, rfl⟩, by decide⟩

theorem witness_RefusedFramesGetNoStep :
    State.reset.phase = .idle ∧ decode State.reset.params [4, 0, 0, 0] = .error .reservedHeaderBits := ⟨rfl, rfl⟩

theorem witness_AcceptThenAnswerEqualsIssue :
    State.reset.phase = .idle ∧ decode State.reset.params (encode (.valueB [])) = .ok (.valueB []) ∧
    ([.issue []] : List HostEvent).head? ≠ some .reset := ⟨rfl, rfl, by decide⟩

theorem witness_ResetAbandonsTheCommand :
    ({ busyState with issued := [.reset] } : State).issued = .reset :: [] := rfl

theorem busyState_inv : busyState.Inv where
  idleHoldsNothing := by decide
  busyHoldsACommand := fun _ => ⟨_, rfl⟩
  commandWellFormed := fun i h => by cases h; decide
  ebufHasEightBytes := by decide
  pendingIsLegal := fun r h => by cases h
  deliveredIsLegal := fun r h => by cases h

theorem witness_EveryStepKeepsTheInvariant : busyState.Inv ∧ ∃ t, step busyState = .next t :=
  ⟨busyState_inv, _, rfl⟩

theorem witness_LegalHostIsNeverStopped : busyState.Inv ∧ busyState.HostLegal :=
  ⟨busyState_inv, fun e h => by cases List.mem_singleton.1 h; decide⟩

theorem witness_IssuedCommandsAreAnsweredInOrder :
    ∃ s : State, s.phase = .idle ∧ s.params.errorSelect = .canonical ∧
      (∀ i ∈ [Instr.valueB [1], .extendB [2] 3], WellFormed s.params i = true) ∧
      s.issued = [Instr.valueB [1], .extendB [2] 3].map (fun i => HostEvent.issue (encode i)) :=
  ⟨{ State.reset with issued := [Instr.valueB [1], .extendB [2] 3].map (fun i => HostEvent.issue (encode i)) },
    rfl, rfl, by decide, rfl⟩

theorem witness_InstancesDoNotInterfere :
    ∃ sys', runSchedule [0, 1, 0] [busyState, State.reset] = .next sys' ∧
      [busyState, State.reset][0]? = some busyState := ⟨_, rfl, rfl⟩

theorem witness_ChainEqualsOneExtend :
    anyState.phase = .idle ∧ dataFits anyState.params ([1] ++ [[2], [3]].flatten) = true := by decide

theorem witness_OnlyChecksumsCanBeChained :
    (∀ c, ([(1, .err .nonIntegerKey)] : Bindings).lookup 1 ≠ some (.ok c)) ∧
    ([(1, .ok 5)] : Bindings).lookup 1 = some (.ok 5) := ⟨fun c h => by simp at h, by decide⟩

end Sys2Proof.Tests
end

section
/-! The engine (40_engine.md): what running it leaves in the state, its fixed point under zero bytes, and the
composition of two extensions. -/

namespace Sys2Proof.Machine

/-- The register's fold is the library's left fold of the byte step (R85). -/
theorem foldBytes_eq_foldl (s : U32) (d : Bytes) : foldBytes s d = d.foldl byteStep s := by
  induction d generalizing s with
  | nil => rfl
  | cons b d ih => exact ih (byteStep s b)

/-- Running the engine is one write of `ACC`: loading it first leaves no trace (R24, R85). -/
theorem State.runEngine_eq_withAcc (s : State) (c : U32) (d : Bytes) :
    s.runEngine c d = s.withAcc (foldBytes (c ^^^ seed) d) := rfl

/-- `SEED` and `XOROUT` cancel (R82). -/
theorem xor_seed_xor_xorout (v : U32) : v ^^^ seed ^^^ xorout = v := by
  have hconst : xorout = seed := rfl
  rw [hconst, BitVec.xor_assoc, BitVec.xor_self, BitVec.xor_zero]

/-- A result inverted back in is the register value it was read out of (R83). -/
theorem engineExtend_xor_seed (c : U32) (d : Bytes) : engineExtend c d ^^^ seed = foldBytes (c ^^^ seed) d :=
  xor_seed_xor_xorout _

theorem engineExtend_nil (c : U32) : engineExtend c [] = c := xor_seed_xor_xorout c

theorem engineExtend_append (c : U32) (a b : Bytes) :
    engineExtend c (a ++ b) = engineExtend (engineExtend c a) b := by
  calc engineExtend c (a ++ b)
      = foldBytes (foldBytes (c ^^^ seed) a) b ^^^ xorout := by rw [engineExtend, foldBytes_append]
    _ = foldBytes (engineExtend c a ^^^ seed) b ^^^ xorout := by rw [engineExtend_xor_seed]
    _ = engineExtend (engineExtend c a) b := rfl

theorem byteStep_zero_zero : byteStep 0 0 = 0 := by decide

/-- The zero register stays zero under zero bytes. -/
theorem foldBytes_zero_replicate (k : Nat) : foldBytes 0 (List.replicate k 0) = 0 := by
  induction k with
  | zero => rfl
  | succ k ih => rw [List.replicate_succ, foldBytes, byteStep_zero_zero, ih]

/-- The checksum 0xFFFFFFFF is loaded as the zero register, so zero bytes give it back. -/
theorem engineExtend_allOnes_replicate_zero (k : Nat) :
    engineExtend 0xFFFFFFFF (List.replicate k 0) = 0xFFFFFFFF := by
  have hload : (0xFFFFFFFF : U32) ^^^ seed = 0 := by decide
  rw [engineExtend, hload, foldBytes_zero_replicate]
  rfl

theorem engineExtend_zeroByte : engineExtend 0 [0x00] = 0x527D5351 := by decide

set_option maxRecDepth 8000 in
/-- The spec's check value, over the bytes of "123456789". -/
theorem engineExtend_checkString :
    engineExtend 0 [0x31, 0x32, 0x33, 0x34, 0x35, 0x36, 0x37, 0x38, 0x39] = 0xE3069283 := by decide

/-- Settles O2: running the engine is one write of `ACC`, with the fold of the byte step. -/
theorem engineFoldsBytesThroughAcc : Obligations.EngineFoldsBytesThroughAcc := by
  refine ⟨fun s c d => ⟨?state, ?result, s.engineResult_runEngine c d⟩, engineExtend_nil,
    engineExtend_allOnes_replicate_zero, engineExtend_zeroByte, engineExtend_checkString⟩
  case state =>
    rw [State.runEngine_eq_withAcc, foldBytes_eq_foldl]
    rfl
  case result =>
    rw [State.engineResult_runEngine, engineExtend, foldBytes_eq_foldl]
    rfl

/-- Settles O7: the register between the two extensions is the one between the two parts of `a ++ b`. -/
theorem extendComposes : Obligations.ExtendComposes :=
  fun c a b => (engineExtend_append c a b).symm

end Sys2Proof.Machine
end

section
/-! The marshaler (41_marshaler.md): its result in terms of the canonical error, and what passing every check says of
an entry. -/

namespace Sys2Proof.Machine

/-! ### The checks -/

/-- R112: an operand is no element size exactly where it is none of the four numbers. -/
theorem esizeOfInt_eq_none {v : Int} : esizeOfInt v = none ↔ v ≠ 1 ∧ v ≠ 2 ∧ v ≠ 4 ∧ v ≠ 8 := by
  unfold esizeOfInt
  split_ifs <;> simp_all

theorem inRange_eq_true {n : ESize} {v : Int} : inRange n v = true ↔ rangeLo n ≤ v ∧ v ≤ rangeHi n := by
  simp [inRange]

/-- An entry passes exactly where its key is not a non-positive integer and its value is an integer in range (R114 to
R116). -/
theorem entryError_eq_none {n : ESize} {e : Entry} : entryError n e = none ↔
    hasNonPositiveKey e = false ∧ ∃ v : I64, e.val = .int v ∧ rangeLo n ≤ v.toInt ∧ v.toInt ≤ rangeHi n := by
  cases hkey : hasNonPositiveKey e with
  | true => simp [entryError, hkey]
  | false =>
    cases hval : e.val with
    | nonint => simp [entryError, hkey, hval, hasNonIntegerValue]
    | int v => simp [entryError, hkey, hval, hasNonIntegerValue, hasValueOutOfRange, inRange]

theorem hasNonPositiveKey_of_pos {k : I64} (hk : 0 < k.toInt) (val : TaggedValue) :
    hasNonPositiveKey ⟨.int k, val⟩ = false := by
  simp [hasNonPositiveKey, hk]

theorem entryError_of_value_outside {n : ESize} {k v : I64} (hk : 0 < k.toInt)
    (hv : v.toInt < rangeLo n ∨ rangeHi n < v.toInt) :
    entryError n ⟨.int k, .int v⟩ = some (.valueOutOfRange n) := by
  have hout : hasValueOutOfRange n ⟨.int k, .int v⟩ = true := by
    simp only [hasValueOutOfRange, Bool.not_eq_true', ← Bool.not_eq_true, inRange_eq_true]
    omega
  simp [entryError, hasNonPositiveKey_of_pos hk, hasNonIntegerValue, hout]

/-- R117: the 8-byte range holds every `i64`. -/
theorem inRange_eight (v : I64) : inRange .eight v.toInt = true := by
  have hlo : rangeLo .eight = -(2 ^ 63) := rfl
  have hhi : rangeHi .eight = 2 ^ 64 - 1 := rfl
  have hmin := v.le_toInt
  have hmax := v.toInt_lt
  rw [inRange_eq_true, hlo, hhi]
  omega

theorem hasValueOutOfRange_eight (e : Entry) : hasValueOutOfRange .eight e = false := by
  cases h : e.val <;> simp [hasValueOutOfRange, h, inRange_eight]

/-! ### The canonical error of a sequence, and the marshaler's result -/

theorem seqCanonicalError_of_illegal_size {esize : I64} (h : esizeOfInt esize.toInt = none) (seq : List Entry) :
    seqCanonicalError esize seq = some .invalidElementSize := by
  simp [seqCanonicalError, h]

theorem seqCanonicalError_of_nonIntegerKey {esize : I64} {n : ESize} {seq : List Entry}
    (hn : esizeOfInt esize.toInt = some n) (hk : seq.any hasNonIntegerKey = true) :
    seqCanonicalError esize seq = some .nonIntegerKey := by
  simp [seqCanonicalError, hn, hk]

theorem seqCanonicalError_of_integerKeys {esize : I64} {n : ESize} {seq : List Entry}
    (hn : esizeOfInt esize.toInt = some n) (hk : seq.any hasNonIntegerKey = false) :
    seqCanonicalError esize seq = (sortByPosition seq).findSome? (entryError n) := by
  simp [seqCanonicalError, hn, hk]

theorem seqErrors_nil_of_illegal_size {esize : I64} (h : esizeOfInt esize.toInt = none) :
    seqErrors esize [] = [.invalidElementSize] := by
  simp [seqErrors, rangeErrors, h]

/-- Where no error is found, the size is legal and every entry passes. -/
theorem entryError_of_seqCanonicalError_none {esize : I64} {n : ESize} {seq : List Entry}
    (hn : esizeOfInt esize.toInt = some n) (h : seqCanonicalError esize seq = none) :
    ∀ e ∈ seq, entryError n e = none := by
  cases hk : seq.any hasNonIntegerKey with
  | true => simp [seqCanonicalError_of_nonIntegerKey hn hk] at h
  | false =>
    rw [seqCanonicalError_of_integerKeys hn hk, List.findSome?_eq_none_iff] at h
    exact fun e he => h e (mem_sortByPosition.2 he)

theorem commandBytes_valueS {esize : I64} {n : ESize} (hn : esizeOfInt esize.toInt = some n) (seq : List Entry) :
    commandBytes (.valueS esize seq) = sequenceBytes n seq := by
  simp [commandBytes, hn]

/-- R124: the marshaler's error is the canonical one. -/
theorem marshalSeq_of_error {esize : I64} {seq : List Entry} {k : ErrorKind}
    (h : seqCanonicalError esize seq = some k) (s : State) : (marshalSeq esize seq s).2 = .error k := by
  cases hn : esizeOfInt esize.toInt with
  | none =>
    rw [seqCanonicalError_of_illegal_size hn] at h
    cases h
    simp [marshalSeq, hn]
  | some n =>
    cases hk : seq.any hasNonIntegerKey with
    | true =>
      rw [seqCanonicalError_of_nonIntegerKey hn hk] at h
      cases h
      simp [marshalSeq, hn, hk]
    | false =>
      rw [seqCanonicalError_of_integerKeys hn hk] at h
      rw [marshalSeq_result_of_size seq s hn hk, h]

/-- R124: with no error the marshaler returns the bytes of the sequence. -/
theorem marshalSeq_of_no_error {esize : I64} {seq : List Entry} (h : seqCanonicalError esize seq = none) (s : State) :
    (marshalSeq esize seq s).2 = .ok (commandBytes (.valueS esize seq)) := by
  cases hn : esizeOfInt esize.toInt with
  | none => simp [seqCanonicalError_of_illegal_size hn] at h
  | some n =>
    cases hk : seq.any hasNonIntegerKey with
    | true => simp [seqCanonicalError_of_nonIntegerKey hn hk] at h
    | false =>
      rw [seqCanonicalError_of_integerKeys hn hk] at h
      rw [marshalSeq_result_of_size seq s hn hk, h, commandBytes_valueS hn]

/-- The marshaler returns bytes only where no check fails, and then they are the bytes of the sequence. -/
theorem marshalSeq_ok {esize : I64} {seq : List Entry} {s m : State} {d : Bytes}
    (h : marshalSeq esize seq s = (m, .ok d)) :
    seqCanonicalError esize seq = none ∧ d = commandBytes (.valueS esize seq) := by
  have hres : (marshalSeq esize seq s).2 = .ok d := by rw [h]
  cases hc : seqCanonicalError esize seq with
  | some k =>
    rw [marshalSeq_of_error hc] at hres
    cases hres
  | none =>
    rw [marshalSeq_of_no_error hc] at hres
    cases hres
    exact ⟨rfl, rfl⟩

end Sys2Proof.Machine
end

section
/-! The response of a command in a state (42_commands.md R140, 60_exceptions.md R168 to R170): what `exec` answers, for
every command, and that it is a response of the core. -/

namespace Sys2Proof.Machine

/-- The response of a command in the state `s`: `s` has a say only in which applicable error is reported (R170). -/
def State.answerTo (s : State) (i : Instr) : Response :=
  match canonicalError i with
  | some k => .err (s.reportedKind k (applicable i))
  | none => .ok (engineExtend (startChecksum i) (commandBytes i))

theorem State.answerTo_of_error (s : State) {i : Instr} {k : ErrorKind} (h : canonicalError i = some k) :
    s.answerTo i = .err (s.reportedKind k (applicable i)) := by
  simp [State.answerTo, h]

theorem State.answerTo_of_no_error (s : State) {i : Instr} (h : canonicalError i = none) :
    s.answerTo i = .ok (engineExtend (startChecksum i) (commandBytes i)) := by
  simp [State.answerTo, h]

/-- R168, R169: the canonical error is an applicable one. -/
theorem canonicalError_mem_applicable {i : Instr} {k : ErrorKind} (h : canonicalError i = some k) :
    k ∈ applicable i := by
  cases i with
  | valueB data => cases h
  | valueS esize seq => exact seqCanonicalError_mem h
  | extendB data prior => exact List.mem_of_head? h
  | extendS esize seq prior =>
    refine List.mem_append.2 ((Option.or_eq_some_iff.1 h).imp List.mem_of_head? fun hseq => ?_)
    exact seqCanonicalError_mem hseq.2

/-! ### The prior's error comes first -/

/-- Where the prior's error is the canonical one it is the response, under either `ERROR_SELECT` (R170). -/
theorem State.answerTo_of_prior_error (s : State) {i : Instr} (h : canonicalError i = some .checksumOutOfRange) :
    s.answerTo i = .err .checksumOutOfRange := by
  rw [s.answerTo_of_error h, s.reportedKind_of_prior (canonicalError_mem_applicable h)]

theorem priorErrors_of_inRange {p : I64} (hlo : 0 ≤ p.toInt) (hhi : p.toInt ≤ 0xFFFFFFFF) : priorErrors p = [] :=
  if_neg (by omega)

section
variable {prior : I64}

theorem canonicalError_extendB_of_illegal_prior (hp : priorErrors prior = [.checksumOutOfRange]) (data : Bytes) :
    canonicalError (.extendB data prior) = some .checksumOutOfRange := by
  simp [canonicalError, hp]

theorem canonicalError_extendS_of_illegal_prior (hp : priorErrors prior = [.checksumOutOfRange]) (esize : I64)
    (seq : List Entry) : canonicalError (.extendS esize seq prior) = some .checksumOutOfRange := by
  simp [canonicalError, hp]

theorem canonicalError_extendB_of_legal_prior (hp : priorErrors prior = []) (data : Bytes) :
    canonicalError (.extendB data prior) = none := by
  simp [canonicalError, hp]

theorem canonicalError_extendS_of_legal_prior (hp : priorErrors prior = []) (esize : I64) (seq : List Entry) :
    canonicalError (.extendS esize seq prior) = seqCanonicalError esize seq := by
  simp [canonicalError, hp]

theorem applicable_extendS_of_legal_prior (hp : priorErrors prior = []) (esize : I64) (seq : List Entry) :
    applicable (.extendS esize seq prior) = seqErrors esize seq := by
  simp [applicable, hp]

end

/-! ### What `exec` answers -/

theorem raise_answers (s : State) (k : ErrorKind) (ks : List ErrorKind) :
    Answers s (s.raise k ks) (.err (s.reportedKind k ks)) :=
  ⟨rfl, rfl, rfl, rfl, rfl, rfl⟩

/-- The tail of both `.S` commands, for a command `i` whose errors and bytes are those of the sequence. -/
theorem checksumSeq_answers_answerTo (i : Instr) {esize : I64} {seq : List Entry} (s : State)
    (hcan : canonicalError i = seqCanonicalError esize seq) (happ : applicable i = seqErrors esize seq)
    (hbytes : commandBytes i = commandBytes (.valueS esize seq)) :
    Answers s (checksumSeq (startChecksum i) esize seq s) (s.answerTo i) := by
  obtain ⟨r, hans, hr⟩ := checksumSeq_answers (startChecksum i) esize seq s
  cases hc : seqCanonicalError esize seq with
  | some k =>
    rw [marshalSeq_of_error hc] at hr
    subst hr
    rwa [s.answerTo_of_error (hcan.trans hc), happ]
  | none =>
    rw [marshalSeq_of_no_error hc] at hr
    subst hr
    rwa [s.answerTo_of_no_error (hcan.trans hc), hbytes]

theorem execExtendB_answers (data : Bytes) (prior : I64) (s : State) :
    ∃ t, execExtendB data prior s = .next t ∧ Answers s t (s.answerTo (.extendB data prior)) := by
  cases h : checkPrior prior with
  | error k =>
    obtain ⟨hp, rfl⟩ := checkPrior_error h
    refine ⟨s.raise .checksumOutOfRange (priorErrors prior), by simp [execExtendB, h], ?_⟩
    rw [s.answerTo_of_error (canonicalError_extendB_of_illegal_prior hp data)]
    exact raise_answers s _ _
  | ok c =>
    obtain ⟨hp, rfl⟩ := checkPrior_ok h
    refine ⟨checksumBytes (prior.setWidth 32) data s, by simp [execExtendB, h], ?_⟩
    rw [s.answerTo_of_no_error (canonicalError_extendB_of_legal_prior hp data)]
    exact checksumBytes_answers _ data s

theorem execExtendS_answers (esize : I64) (seq : List Entry) (prior : I64) (s : State) :
    ∃ t, execExtendS esize seq prior s = .next t ∧ Answers s t (s.answerTo (.extendS esize seq prior)) := by
  cases h : checkPrior prior with
  | error k =>
    obtain ⟨hp, rfl⟩ := checkPrior_error h
    refine ⟨s.raise .checksumOutOfRange (priorErrors prior ++ seqErrors esize seq), by simp [execExtendS, h], ?_⟩
    rw [s.answerTo_of_error (canonicalError_extendS_of_illegal_prior hp esize seq)]
    exact raise_answers s _ _
  | ok c =>
    obtain ⟨hp, rfl⟩ := checkPrior_ok h
    refine ⟨checksumSeq (prior.setWidth 32) esize seq s, by simp [execExtendS, h], ?_⟩
    exact checksumSeq_answers_answerTo (.extendS esize seq prior) s
      (canonicalError_extendS_of_legal_prior hp esize seq) (applicable_extendS_of_legal_prior hp esize seq) rfl

/-- Every command, in every state, ends in a next state with its response delivered. -/
theorem exec_answers (i : Instr) (s : State) : ∃ t, exec i s = .next t ∧ Answers s t (s.answerTo i) := by
  cases i with
  | valueB data => exact ⟨_, rfl, checksumBytes_answers 0 data s⟩
  | valueS esize seq =>
    exact ⟨checksumSeq 0 esize seq s, rfl, checksumSeq_answers_answerTo (.valueS esize seq) s rfl rfl rfl⟩
  | extendB data prior => exact execExtendB_answers data prior s
  | extendS esize seq prior => exact execExtendS_answers esize seq prior s

/-! ### The response is one of the core's (R167, R117) -/

theorem mem_priorErrors {p : I64} {k : ErrorKind} (h : k ∈ priorErrors p) : k = .checksumOutOfRange := by
  unfold priorErrors at h
  split at h <;> simp_all

/-- A range error carries the command's own element size, which is never 8 (R117). -/
theorem mem_rangeErrors {esize : I64} {seq : List Entry} {k : ErrorKind} (h : k ∈ rangeErrors esize seq) :
    ∃ n, esizeOfInt esize.toInt = some n ∧ k = .valueOutOfRange n ∧ n ≠ .eight := by
  unfold rangeErrors at h
  split at h
  case h_1 => cases h
  case h_2 n hn =>
    split at h
    case isFalse => cases h
    case isTrue hany =>
      refine ⟨n, hn, List.mem_singleton.1 h, ?_⟩
      rintro rfl
      simp [hasValueOutOfRange_eight] at hany

theorem raisedByCore_of_mem_seqErrors {esize : I64} {seq : List Entry} {k : ErrorKind}
    (h : k ∈ seqErrors esize seq) : k.raisedByCore = true := by
  simp only [seqErrors, List.mem_append, List.mem_ite_nil_right, List.mem_singleton] at h
  obtain (((⟨-, rfl⟩ | ⟨-, rfl⟩) | ⟨-, rfl⟩) | ⟨-, rfl⟩) | hrange := h
  case inr =>
    obtain ⟨n, -, rfl, hne⟩ := mem_rangeErrors hrange
    cases n with
    | eight => exact absurd rfl hne
    | _ => rfl
  all_goals rfl

theorem raisedByCore_of_mem_applicable {i : Instr} {k : ErrorKind} (h : k ∈ applicable i) :
    k.raisedByCore = true := by
  have hprior : ∀ {p : I64}, k ∈ priorErrors p → k.raisedByCore = true := fun hk => by
    rw [mem_priorErrors hk]
    rfl
  cases i with
  | valueB data => cases h
  | valueS esize seq => exact raisedByCore_of_mem_seqErrors h
  | extendB data prior => exact hprior h
  | extendS esize seq prior => exact (List.mem_append.1 h).elim hprior raisedByCore_of_mem_seqErrors

theorem State.answerTo_fromCore (s : State) (i : Instr) : (s.answerTo i).fromCore = true := by
  cases h : canonicalError i with
  | some k =>
    rw [s.answerTo_of_error h]
    exact raisedByCore_of_mem_applicable (s.reportedKind_mem (canonicalError_mem_applicable h))
  | none =>
    rw [s.answerTo_of_no_error h]
    rfl

end Sys2Proof.Machine
end

section
/-! The order of the entries (41_marshaler.md R118): with distinct integer keys there is one ascending order. -/

namespace Sys2Proof.Machine

/-- Where every key is an integer, the positions are the integer keys. -/
theorem map_position_of_integerKeys {seq : List Entry} (hk : seq.any hasNonIntegerKey = false) :
    seq.map Entry.position = (intKeys seq).map BitVec.toInt := by
  induction seq with
  | nil => rfl
  | cons e seq ih =>
    obtain ⟨key, val⟩ := e
    rw [List.any_cons, Bool.or_eq_false_iff] at hk
    cases key with
    | nonint => simp [hasNonIntegerKey] at hk
    | int k => simpa [intKeys, TaggedValue.int?, Entry.position] using ih hk.2

theorem position_injOn {seq : List Entry} (hd : keysDistinct seq = true) (hk : seq.any hasNonIntegerKey = false)
    {a b : Entry} (ha : a ∈ seq) (hb : b ∈ seq) (hab : a.position = b.position) : a = b := by
  have hnodup : (seq.map Entry.position).Nodup := by
    rw [map_position_of_integerKeys hk]
    exact (of_decide_eq_true hd).map fun _ _ => BitVec.eq_of_toInt_eq
  exact List.inj_on_of_nodup_map hnodup ha hb hab

theorem sortByPosition_eq_of_perm {seq seq' : List Entry} (hp : seq.Perm seq') (hd : keysDistinct seq = true)
    (hk : seq.any hasNonIntegerKey = false) : sortByPosition seq = sortByPosition seq' := by
  refine List.Perm.eq_of_pairwise (fun a b ha hb hab hba => ?_) (sortByPosition_sorted seq)
    (sortByPosition_sorted seq') ((sortByPosition_perm seq).trans (hp.trans (sortByPosition_perm seq').symm))
  have hb' : b ∈ seq := hp.mem_iff.2 (mem_sortByPosition.1 hb)
  exact position_injOn hd hk (mem_sortByPosition.1 ha) hb' (le_antisymm hab hba)

/-- Which errors apply does not depend on the order of the entries (R168). -/
theorem seqErrors_eq_of_perm {seq seq' : List Entry} (hp : seq.Perm seq') (esize : I64) :
    seqErrors esize seq = seqErrors esize seq' := by
  simp only [seqErrors, rangeErrors, hp.any_eq]

theorem marshalSeq_eq_of_perm {seq seq' : List Entry} (hp : seq.Perm seq') (hd : keysDistinct seq = true)
    (esize : I64) (s : State) : marshalSeq esize seq s = marshalSeq esize seq' s := by
  unfold marshalSeq
  rw [← hp.any_eq]
  cases hk : seq.any hasNonIntegerKey with
  | true => rfl
  | false => rw [sortByPosition_eq_of_perm hp hd hk]

theorem checksumSeq_eq_of_perm {seq seq' : List Entry} (hp : seq.Perm seq') (hd : keysDistinct seq = true)
    (c : U32) (esize : I64) (s : State) : checksumSeq c esize seq s = checksumSeq c esize seq' s := by
  unfold checksumSeq
  rw [marshalSeq_eq_of_perm hp hd, seqErrors_eq_of_perm hp]

end Sys2Proof.Machine
end

section
/-! The statements about element sizes, value ranges, entry order and encodings (41_marshaler.md). -/

namespace Sys2Proof.Machine

/-- A command whose first error is an illegal element size is answered with an error, and with that one where no other
applies. -/
theorem exec_answers_of_illegal_size {i : Instr} {v : I64} {seq : List Entry} (s : State)
    (hsize : esizeOfInt v.toInt = none) (hcan : canonicalError i = seqCanonicalError v seq)
    (happ : applicable i = seqErrors v seq) :
    ∃ t k, exec i s = .next t ∧ Answers s t (.err k) ∧
      (seq = [] ∨ seqErrors v seq = [.invalidElementSize] → k = .invalidElementSize) := by
  have herr : canonicalError i = some .invalidElementSize :=
    hcan.trans (seqCanonicalError_of_illegal_size hsize seq)
  obtain ⟨t, hexec, hans⟩ := exec_answers i s
  rw [s.answerTo_of_error herr] at hans
  refine ⟨t, _, hexec, hans, fun honly => ?_⟩
  have hsingle : applicable i = [.invalidElementSize] := by
    rw [happ]
    rcases honly with rfl | honly
    · exact seqErrors_nil_of_illegal_size hsize
    · exact honly
  have hmem := s.reportedKind_mem (canonicalError_mem_applicable herr)
  rw [hsingle] at hmem ⊢
  exact List.mem_singleton.1 hmem

/-- Settles O13: an illegal element size is the canonical error, so the command is answered with an error, and the
applicable errors are only that one for the empty sequence. -/
theorem elementSizeMustBeOneTwoFourEight : Obligations.ElementSizeMustBeOneTwoFourEight := by
  refine ⟨fun _ => esizeOfInt_eq_none, fun _ _ => esizeOfInt_eq_some, ?valueS, ?extendS⟩
  case valueS =>
    intro v seq s hsize _
    exact exec_answers_of_illegal_size s hsize rfl rfl
  case extendS =>
    intro v prior seq s hsize _ hlo hhi
    have hp := priorErrors_of_inRange hlo hhi
    exact exec_answers_of_illegal_size s hsize (canonicalError_extendS_of_legal_prior hp v seq)
      (applicable_extendS_of_legal_prior hp v seq)

/-- Settles O14: under a positive key only the range check is left for an integer value. -/
theorem valueRangeOfEachElementSize : Obligations.ValueRangeOfEachElementSize := by
  refine ⟨by decide, fun _ => ⟨rfl, rfl⟩, fun n k v hk => ⟨fun hv => ?_, entryError_of_value_outside hk⟩,
    fun _ => rfl⟩
  exact entryError_eq_none.2 ⟨hasNonPositiveKey_of_pos hk _, v, rfl, hv⟩

/-- Settles O15: the response is one of the core's, and the core's errors leave out `ValueOutOfRange(8)`, since the
8-byte range holds every `i64`. -/
theorem eightByteRangeNeverFails : Obligations.EightByteRangeNeverFails := by
  refine ⟨inRange_eight, fun i s t hexec hdel => ?_⟩
  obtain ⟨t', hexec', hans⟩ := exec_answers i s
  cases hexec.symm.trans hexec'
  have hresp : s.answerTo i = .err (.valueOutOfRange .eight) := by
    simpa using hans.delivered.symm.trans hdel
  have hcore := s.answerTo_fromCore i
  rw [hresp] at hcore
  cases hcore

/-- Settles O16: the marshaler encodes the sorted entries, and distinct integer keys leave one sorted order. -/
theorem entryOrderHasNoEffect : Obligations.EntryOrderHasNoEffect := by
  refine ⟨fun esize seq s m d n hn hm => ?ascending, fun esize prior seq seq' s hp hd => ⟨?valueS, ?extendS⟩⟩
  case ascending =>
    obtain ⟨-, rfl⟩ := marshalSeq_ok hm
    exact ⟨sortByPosition seq, sortByPosition_perm seq, sortByPosition_sorted seq, commandBytes_valueS hn seq⟩
  case valueS =>
    simp only [exec, execValueS, checksumSeq_eq_of_perm hp hd]
  case extendS =>
    simp only [exec, execExtendS, checksumSeq_eq_of_perm hp hd, seqErrors_eq_of_perm hp]

/-- Byte `i` of the encoding is bits `8i+7` to `8i` of the value modulo `2^(8n)` (R120). -/
theorem getElem?_encodeLE (v : Int) {n : ESize} {i : Nat} (hi : i < n.toNat) :
    (encodeLE v n)[i]? = some (BitVec.ofInt 8 ((v % 2 ^ (8 * n.toNat)) / 2 ^ (8 * i))) := by
  have hpow : (256 : Nat) ^ i = 2 ^ (8 * i) := by rw [Nat.pow_mul]
  have hpattern : v % 2 ^ (8 * n.toNat) = ((v % 2 ^ (8 * n.toNat)).toNat : Int) :=
    (Int.toNat_of_nonneg (Int.emod_nonneg v (by positivity))).symm
  rw [encodeLE, getElem?_leBytes _ hi, hpow]
  generalize (v % 2 ^ (8 * n.toNat)).toNat = u at hpattern ⊢
  rw [hpattern, ← BitVec.ofInt_natCast]
  push_cast
  rfl

/-- Settles O18: the encoding byte by byte; what is encoded has passed check 4. -/
theorem encodeLEGivesTheLowBytesInOrder : Obligations.EncodeLEGivesTheLowBytesInOrder := by
  refine ⟨fun v n => ⟨length_encodeLE v n, fun i hi => getElem?_encodeLE v hi⟩, ?_⟩
  intro esize seq s m d n hn hm e he
  have hpass := entryError_of_seqCanonicalError_none hn (marshalSeq_ok hm).1 e he
  exact (entryError_eq_none.1 hpass).2

/-- R129: a sequence that marshals to `d` extends every prior as `d` does, a prior out of range included. -/
theorem State.answerTo_extendS_eq_extendB {esize : I64} {seq : List Entry} (s : State)
    (hc : seqCanonicalError esize seq = none) (prior : I64) :
    s.answerTo (.extendS esize seq prior) = s.answerTo (.extendB (commandBytes (.valueS esize seq)) prior) := by
  cases h : checkPrior prior with
  | error k =>
    obtain ⟨hp, -⟩ := checkPrior_error h
    rw [s.answerTo_of_prior_error (canonicalError_extendS_of_illegal_prior hp esize seq),
      s.answerTo_of_prior_error (canonicalError_extendB_of_illegal_prior hp _)]
  | ok c =>
    obtain ⟨hp, -⟩ := checkPrior_ok h
    rw [s.answerTo_of_no_error ((canonicalError_extendS_of_legal_prior hp esize seq).trans hc),
      s.answerTo_of_no_error (canonicalError_extendB_of_legal_prior hp _)]
    rfl

/-- Settles O25: both paths have the same starting checksum and fold in the same bytes. -/
theorem structuredAndByteStringPathsAgree : Obligations.StructuredAndByteStringPathsAgree := by
  intro esize seq s m d hm _ _
  obtain ⟨hc, rfl⟩ := marshalSeq_ok hm
  refine ⟨?value, fun prior => ?extend⟩
  case value =>
    obtain ⟨t, ht, hans⟩ := exec_answers (.valueS esize seq) s
    obtain ⟨u, hu, hans'⟩ := exec_answers (.valueB (commandBytes (.valueS esize seq))) s
    rw [s.answerTo_of_no_error (i := .valueS esize seq) hc] at hans
    exact ⟨t, u, ht, hu, hans, hans'⟩
  case extend =>
    obtain ⟨t, ht, hans⟩ := exec_answers (.extendS esize seq prior) s
    obtain ⟨u, hu, hans'⟩ := exec_answers (.extendB (commandBytes (.valueS esize seq)) prior) s
    rw [s.answerTo_extendS_eq_extendB hc] at hans
    exact ⟨t, u, _, ht, hu, hans, hans'⟩

end Sys2Proof.Machine
end

section
/-! The statements about the responses of the commands (42_commands.md R141, R143, R147): each reads the response off
`exec_answers` and the canonical error of its command. -/

namespace Sys2Proof.Machine

/-! ### Priors -/

theorem priorErrors_of_outOfRange {p : I64} (h : p.toInt < 0 ∨ 0xFFFFFFFF < p.toInt) :
    priorErrors p = [.checksumOutOfRange] :=
  if_pos h

theorem checkPrior_zero : checkPrior 0 = .ok 0 := by decide

/-- R146 for byte strings: the prior 0 passes the check, and both commands then run the same tail from 0. -/
theorem exec_extendB_zero (data : Bytes) (s : State) : exec (.extendB data 0) s = exec (.valueB data) s := by
  simp only [exec, execExtendB, checkPrior_zero, execValueB]

/-! ### EXTEND.B -/

theorem exec_extendB_answers_of_prior_inRange (data : Bytes) {prior : I64} (s : State)
    (hlo : 0 ≤ prior.toInt) (hhi : prior.toInt ≤ 0xFFFFFFFF) :
    ∃ t, exec (.extendB data prior) s = .next t ∧
      Answers s t (.ok (engineExtend (prior.setWidth 32) data)) := by
  have hno := canonicalError_extendB_of_legal_prior (priorErrors_of_inRange hlo hhi) data
  obtain ⟨t, hexec, hans⟩ := exec_answers (.extendB data prior) s
  rw [s.answerTo_of_no_error hno] at hans
  exact ⟨t, hexec, hans⟩

theorem exec_extendB_answers_of_prior_outOfRange (data : Bytes) {prior : I64} (s : State)
    (h : prior.toInt < 0 ∨ 0xFFFFFFFF < prior.toInt) :
    ∃ t, exec (.extendB data prior) s = .next t ∧ Answers s t (.err .checksumOutOfRange) := by
  have herr := canonicalError_extendB_of_illegal_prior (priorErrors_of_outOfRange h) data
  obtain ⟨t, hexec, hans⟩ := exec_answers (.extendB data prior) s
  rw [s.answerTo_of_prior_error herr] at hans
  exact ⟨t, hexec, hans⟩

/-! ### Frames (30_encoding.md R63, R66) -/

theorem encode_valueB (data : Bytes) :
    encode (.valueB data) = [0, 0, 0, 0] ++ leBytes 8 data.length ++ data := by
  have hheader : leBytes 4 0 = [0, 0, 0, 0] := by decide
  rw [encode, headerWord, encodeOperands, encodeData, hheader, List.append_assoc]

theorem encode_extendB (data : Bytes) (prior : I64) : encode (.extendB data prior) =
    [2, 0, 0, 0] ++ leBytes 8 prior.toNat ++ leBytes 8 data.length ++ data := by
  have hheader : leBytes 4 2 = [2, 0, 0, 0] := by decide
  rw [encode, headerWord, encodeOperands, encodeData, hheader]
  simp only [List.append_assoc]

/-! ### The statements -/

set_option maxRecDepth 8000 in
/-- The checksum of "1234" as the prior and "56789" as the data give the spec's check value. -/
theorem commandResponse_extendB_checkString :
    commandResponse (.extendB [0x35, 0x36, 0x37, 0x38, 0x39] 0xF63AF4EE) = .ok 0xE3069283 := by decide

/-- Settles O28: the prior decides the canonical error, and `ChecksumOutOfRange` is never a free choice. -/
theorem extendBReturnsTheChecksumOrTheError : Obligations.ExtendBReturnsTheChecksumOrTheError :=
  ⟨fun data _ s _ => exec_extendB_answers_of_prior_inRange data s,
    fun data _ s _ => exec_extendB_answers_of_prior_outOfRange data s,
    exec_extendB_zero, encode_extendB, fun _ => rfl, rfl, fun _ => engineExtend_nil _,
    commandResponse_extendB_checkString⟩

/-- Settles O33: the one response is `answerTo`, a checksum or an applicable error. -/
theorem everyCommandGetsExactlyOneResponse : Obligations.EveryCommandGetsExactlyOneResponse := by
  intro i s _
  obtain ⟨t, hexec, hans⟩ := exec_answers i s
  exact ⟨t, s.answerTo i, hexec, hans⟩

/-- Settles O26: no error is ever canonical for `VALUE.B`, so the response is the checksum of its bytes from 0. -/
theorem valueBReturnsTheChecksum : Obligations.ValueBReturnsTheChecksum :=
  ⟨fun data s _ => exec_answers (.valueB data) s, encode_valueB, fun _ => rfl, engineExtend_nil 0,
    engineExtend_checkString⟩

end Sys2Proof.Machine
end

section
/-! The statements about which responses are errors and which errors they are (60_exceptions.md R167, R168). -/

namespace Sys2Proof.Machine

/-- A command has one response: whatever `Answers` says was delivered is `answerTo`. -/
theorem eq_answerTo_of_exec {i : Instr} {s t : State} {r : Response} (hexec : exec i s = .next t)
    (hans : Answers s t r) : r = s.answerTo i := by
  obtain ⟨t', hexec', hans'⟩ := exec_answers i s
  cases hexec.symm.trans hexec'
  simpa using hans.delivered.symm.trans hans'.delivered

/-! ### BadSignature (R167) -/

theorem ErrorKind.code_le_six_of_raisedByCore {k : ErrorKind} (h : k.raisedByCore = true) : k.code.toNat ≤ 6 := by
  cases k with
  | badSignature => cases h
  | _ => simp [ErrorKind.code]

theorem Response.status_le_six_of_fromCore {r : Response} (h : r.fromCore = true) : r.status.toNat ≤ 6 := by
  cases r with
  | ok c => simp [Response.status]
  | err k => exact ErrorKind.code_le_six_of_raisedByCore h

/-- Settles O37: the response is one of the core's, and the core's errors leave out BadSignature. -/
theorem coreNeverRaisesBadSignature : Obligations.CoreNeverRaisesBadSignature := by
  refine ⟨rfl, fun i s t r hexec hans => ?_⟩
  have hcore : r.fromCore = true := by
    rw [eq_answerTo_of_exec hexec hans]
    exact s.answerTo_fromCore i
  refine ⟨?_, Response.status_le_six_of_fromCore hcore, hcore⟩
  rintro rfl
  cases hcore

/-! ### The applicable errors (R168) -/

theorem mem_priorErrors_iff {p : I64} {k : ErrorKind} :
    k ∈ priorErrors p ↔ k = .checksumOutOfRange ∧ (p.toInt < 0 ∨ 0xFFFFFFFF < p.toInt) := by
  rw [priorErrors, List.mem_ite_nil_right, List.mem_singleton, and_comm]

theorem mem_rangeErrors_iff {esize : I64} {seq : List Entry} {k : ErrorKind} : k ∈ rangeErrors esize seq ↔
    ∃ n, k = .valueOutOfRange n ∧ esizeOfInt esize.toInt = some n ∧ seq.any (hasValueOutOfRange n) = true := by
  unfold rangeErrors
  cases esizeOfInt esize.toInt with
  | none => simp
  | some n => simp [List.mem_ite_nil_right, and_comm]

theorem mem_seqErrors_iff {esize : I64} {seq : List Entry} {k : ErrorKind} : k ∈ seqErrors esize seq ↔
    k = .invalidElementSize ∧ esizeOfInt esize.toInt = none ∨
    k = .nonIntegerKey ∧ seq.any hasNonIntegerKey = true ∨
    k = .nonPositiveKey ∧ seq.any hasNonPositiveKey = true ∨
    k = .nonIntegerValue ∧ seq.any hasNonIntegerValue = true ∨
    ∃ n, k = .valueOutOfRange n ∧ esizeOfInt esize.toInt = some n ∧ seq.any (hasValueOutOfRange n) = true := by
  simp only [seqErrors, List.mem_append, List.mem_ite_nil_right, List.mem_singleton, mem_rangeErrors_iff,
    and_comm (b := k = _), or_assoc]

/-! The check of each entry, in the words of R168. -/

theorem any_hasNonIntegerKey {seq : List Entry} :
    seq.any hasNonIntegerKey = true ↔ ∃ x ∈ seq, x.key = .nonint := by
  simp [hasNonIntegerKey]

theorem any_hasNonPositiveKey {seq : List Entry} :
    seq.any hasNonPositiveKey = true ↔ ∃ x ∈ seq, ∃ v : I64, x.key = .int v ∧ v.toInt ≤ 0 := by
  have hentry : ∀ x : Entry, hasNonPositiveKey x = true ↔ ∃ v : I64, x.key = .int v ∧ v.toInt ≤ 0 := fun x => by
    cases h : x.key <;> simp [hasNonPositiveKey, h]
  simp only [List.any_eq_true, hentry]

theorem any_hasNonIntegerValue {seq : List Entry} :
    seq.any hasNonIntegerValue = true ↔ ∃ x ∈ seq, x.val = .nonint := by
  simp [hasNonIntegerValue]

theorem any_hasValueOutOfRange {n : ESize} {seq : List Entry} : seq.any (hasValueOutOfRange n) = true ↔
    ∃ x ∈ seq, ∃ v : I64, x.val = .int v ∧ (v.toInt < rangeLo n ∨ rangeHi n < v.toInt) := by
  have hentry : ∀ x : Entry, hasValueOutOfRange n x = true ↔
      ∃ v : I64, x.val = .int v ∧ (v.toInt < rangeLo n ∨ rangeHi n < v.toInt) := fun x => by
    cases h : x.val with
    | nonint => simp [hasValueOutOfRange, h]
    | int v => simp [hasValueOutOfRange, h, inRange]
  simp only [List.any_eq_true, hentry]

/-- Where no error is canonical, none applies. -/
theorem applicable_eq_nil {i : Instr} (h : canonicalError i = none) : applicable i = [] := by
  cases i with
  | valueB data => rfl
  | valueS esize seq => exact seqErrors_eq_nil h
  | extendB data prior => exact List.head?_eq_none_iff.1 h
  | extendS esize seq prior =>
    obtain ⟨hprior, hseq⟩ := Option.or_eq_none_iff.1 h
    exact List.append_eq_nil_iff.2 ⟨List.head?_eq_none_iff.1 hprior, seqErrors_eq_nil hseq⟩

theorem State.answerTo_isErr_iff (s : State) (i : Instr) : (∃ k, s.answerTo i = .err k) ↔ applicable i ≠ [] := by
  cases h : canonicalError i with
  | some k =>
    have hne : applicable i ≠ [] := List.ne_nil_of_mem (canonicalError_mem_applicable h)
    exact iff_of_true ⟨_, s.answerTo_of_error h⟩ hne
  | none => simp [s.answerTo_of_no_error h, applicable_eq_nil h]

/-- Settles O38: an error is answered where one is canonical, which is where the applicable set is not empty; the set is
the prior's error and the sequence's. -/
theorem errorExactlyWhereSomeErrorApplies : Obligations.ErrorExactlyWhereSomeErrorApplies := by
  refine ⟨fun i s t r hexec hans => ?response, fun e p q k => ?extendS, fun e q => ?valueS,
    fun _ _ _ => mem_priorErrors_iff, fun _ => rfl⟩
  case response =>
    rw [eq_answerTo_of_exec hexec hans]
    exact s.answerTo_isErr_iff i
  case valueS =>
    have hzero : priorErrors 0 = [] := by decide
    exact (applicable_extendS_of_legal_prior hzero e q).symm
  case extendS =>
    simp only [applicable, List.mem_append, mem_priorErrors_iff, mem_seqErrors_iff, esizeOfInt_eq_none,
      esizeOfInt_eq_some, any_hasNonIntegerKey, any_hasNonPositiveKey, any_hasNonIntegerValue, any_hasValueOutOfRange]

end Sys2Proof.Machine
end

section
/-! The parts of a command's frame (30_encoding.md R63, R66, R67), and what the decoder reads of a frame that begins
with a command's fixed fields, whatever its `LEN` or `COUNT` says and whatever follows. -/

namespace Sys2Proof

/-- The fields between `HDR` and `LEN` or `COUNT`: `ESIZE` if `S`, `PRIOR` if `X` (R63). -/
def Instr.operandFields : Instr → Bytes
  | .valueB _ => []
  | .valueS esize _ => leBytes 8 esize.toNat
  | .extendB _ prior => leBytes 8 prior.toNat
  | .extendS esize _ prior => leBytes 8 esize.toNat ++ leBytes 8 prior.toNat

/-- The fields in front of `LEN` or `COUNT` (R63). -/
def Instr.fixedFields (i : Instr) : Bytes := leBytes 4 (headerWord i) ++ i.operandFields

/-- Whether the input is a structured sequence: bit `S` of the header (R61). -/
def Instr.isSeq : Instr → Bool
  | .valueB _ | .extendB _ _ => false
  | .valueS _ _ | .extendS _ _ _ => true

/-- Whether the command extends a prior checksum: bit `X` of the header (R61). -/
def Instr.hasPrior : Instr → Bool
  | .valueB _ | .valueS _ _ => false
  | .extendB _ _ | .extendS _ _ _ => true

/-- The bytes of one unit of the body: an entry or a data byte (R70). -/
def Instr.unit (i : Instr) : Nat := if i.isSeq then 18 else 1

/-- `LEN` or `COUNT` (R66, R67). -/
def Instr.count : Instr → Nat
  | .valueB data | .extendB data _ => data.length
  | .valueS _ seq | .extendS _ seq _ => seq.length

/-- The entries of a command, none for a byte string. -/
def Instr.entries : Instr → List Entry
  | .valueB _ | .extendB _ _ => []
  | .valueS _ seq | .extendS _ seq _ => seq

/-- `DATA`, or the entries in frame order (R66, R67). -/
def Instr.body : Instr → Bytes
  | .valueB data | .extendB data _ => data
  | .valueS _ seq | .extendS _ seq _ => seq.flatMap encodeEntry

/-- The fixed fields of `i`, with `n` as `LEN` or `COUNT` and any bytes behind it. -/
def Instr.frameWith (i : Instr) (n : Nat) (body : Bytes) : Bytes := i.fixedFields ++ (leBytes 8 n ++ body)

theorem encode_eq_frameWith (i : Instr) : encode i = i.frameWith i.count i.body := by
  cases i <;> simp [encode, headerWord, encodeOperands, encodeData, encodeSeq, Instr.frameWith, Instr.fixedFields,
    Instr.operandFields, Instr.count, Instr.body]

theorem Instr.length_body (i : Instr) : i.body.length = i.unit * i.count := by
  cases i with
  | valueB data | extendB data _ => simp [Instr.body, Instr.unit, Instr.isSeq, Instr.count]
  | valueS _ seq | extendS _ seq _ => exact length_flatMap_encodeEntry seq

theorem Instr.body_of_isSeq {i : Instr} (h : i.isSeq = true) : i.body = i.entries.flatMap encodeEntry := by
  cases i with
  | valueB _ | extendB _ _ => cases h
  | valueS _ _ | extendS _ _ _ => rfl

theorem Instr.length_entries_of_isSeq {i : Instr} (h : i.isSeq = true) : i.entries.length = i.count := by
  cases i with
  | valueB _ | extendB _ _ => cases h
  | valueS _ _ | extendS _ _ _ => rfl

/-! ### What the header says -/

theorem headerWord_lt (i : Instr) : headerWord i < 4 := by
  cases i <;> simp [headerWord]

section
variable {f : Bytes} {i : Instr} (hh : header? f = some (headerWord i))
include hh

theorem sBit_of_header : sBit f = i.isSeq := by
  rw [sBit, hh]
  cases i <;> simp [headerWord, Instr.isSeq]

theorem xBit_of_header : xBit f = i.hasPrior := by
  rw [xBit, hh]
  cases i <;> simp [headerWord, Instr.hasPrior, Nat.testBit]

theorem hasReservedHeaderBits_of_header : hasReservedHeaderBits f = false := by
  rw [hasReservedHeaderBits, hh]
  cases i <;> rfl

theorem countOffset_of_header : countOffset f = i.fixedFields.length := by
  rw [countOffset, sBit_of_header hh, xBit_of_header hh]
  cases i <;> simp [Instr.fixedFields, Instr.operandFields, Instr.isSeq, Instr.hasPrior]

end

/-! ### The fields behind the header -/

section
variable (i : Instr) {n : Nat} (body : Bytes)

theorem header?_frameWith : header? (i.frameWith n body) = some (headerWord i) := by
  rw [Instr.frameWith, Instr.fixedFields, List.append_assoc]
  exact header?_append (headerWord_lt i) _

theorem sBit_frameWith : sBit (i.frameWith n body) = i.isSeq := sBit_of_header (header?_frameWith i body)

theorem bodyOffset_frameWith : bodyOffset (i.frameWith n body) = i.fixedFields.length + 8 := by
  rw [bodyOffset, countOffset_of_header (header?_frameWith i body)]

theorem length_frameWith : (i.frameWith n body).length = i.fixedFields.length + 8 + body.length := by
  simp [Instr.frameWith]
  omega

theorem drop_bodyOffset_frameWith : (i.frameWith n body).drop (bodyOffset (i.frameWith n body)) = body := by
  rw [bodyOffset_frameWith, Instr.frameWith, ← List.drop_drop, List.drop_left]
  exact List.drop_left' (length_leBytes 8 n)

variable (hn : n < 2 ^ 64)
include hn

theorem count?_frameWith : count? (i.frameWith n body) = some n :=
  count?_append body hn (countOffset_of_header (header?_frameWith i body))

theorem frameLength?_frameWith :
    frameLength? (i.frameWith n body) = some (i.fixedFields.length + 8 + i.unit * n) := by
  rw [frameLength?, count?_frameWith i body hn, Option.map_some, bodyOffset_frameWith, unitLen, sBit_frameWith,
    Instr.unit]

theorem isOverMaxDataLen_frameWith (p : Params) :
    isOverMaxDataLen p (i.frameWith n body) = (!i.isSeq && decide (p.maxDataLen < n)) := by
  rw [isOverMaxDataLen, count?_frameWith i body hn, sBit_frameWith]

theorem isOverMaxSeqLen_frameWith (p : Params) :
    isOverMaxSeqLen p (i.frameWith n body) = (i.isSeq && decide (p.maxSeqLen < n)) := by
  rw [isOverMaxSeqLen, count?_frameWith i body hn, sBit_frameWith]

theorem isTruncated_frameWith : isTruncated (i.frameWith n body) = decide (body.length < i.unit * n) := by
  rw [isTruncated, frameLength?_frameWith i body hn, length_frameWith]
  exact decide_eq_decide.2 (by omega)

theorem hasTrailingBytes_frameWith :
    hasTrailingBytes (i.frameWith n body) = decide (i.unit * n < body.length) := by
  rw [hasTrailingBytes, frameLength?_frameWith i body hn, length_frameWith]
  exact decide_eq_decide.2 (by omega)

theorem slotsOf_frameWith : slotsOf (i.frameWith n body) =
    if i.isSeq then taggedSlots (min (2 * n) (i.frameWith n body).length) body else [] := by
  rw [slotsOf, count?_frameWith i body hn, drop_bodyOffset_frameWith, sBit_frameWith]
  cases i.isSeq <;> rfl

theorem entriesOf_frameWith : entriesOf (i.frameWith n body) = readEntries n body := by
  rw [entriesOf, count?_frameWith i body hn, drop_bodyOffset_frameWith, Option.getD_some]

theorem hasDuplicateKey_frameWith :
    hasDuplicateKey (i.frameWith n body) = (i.isSeq && !keysDistinct (readEntries n body)) := by
  rw [hasDuplicateKey, entriesOf_frameWith i body hn, sBit_frameWith]

end

/-! ### Slots of a body that is cut short or followed by bytes -/

/-- A slot that encoded tagged values give, its payload perhaps cut short. -/
def IsLegalSlot (s : Byte × Bytes) : Prop :=
  ∃ (v : TaggedValue) (j : Nat), s = ((encodeTV v).headD 0, (encodeTV v).tail.take j)

theorem IsLegalSlot.tag {s : Byte × Bytes} (h : IsLegalSlot s) : (s.1 != 0 && s.1 != 1) = false := by
  obtain ⟨v, j, rfl⟩ := h
  cases v <;> rfl

theorem IsLegalSlot.payload {s : Byte × Bytes} (h : IsLegalSlot s) :
    (s.1 == 1 && s.2.length == 8 && s.2.any (· != 0)) = false := by
  obtain ⟨v, j, rfl⟩ := h
  cases v with
  | int v => rfl
  | nonint =>
    have hzero : ((encodeTV .nonint).tail.take j).any (· != 0) = false := List.any_eq_false.2 fun b hb => by
      simpa using List.eq_of_mem_replicate (List.mem_of_mem_take hb)
    rw [hzero, Bool.and_false]

/-- At most as many slots as there are encoded tagged values in front are all legal, wherever the bytes are cut. -/
theorem taggedSlots_take_legal (k m : Nat) (tvs : List TaggedValue) (extra : Bytes) (hk : k ≤ tvs.length) :
    ∀ s ∈ taggedSlots k ((tvs.flatMap encodeTV ++ extra).take m), IsLegalSlot s := by
  induction tvs generalizing k m with
  | nil => simp [Nat.le_zero.1 hk, taggedSlots]
  | cons v tvs ih =>
    cases k with
    | zero => simp [taggedSlots]
    | succ k =>
      cases m with
      | zero => simp [taggedSlots]
      | succ m =>
        obtain ⟨t, payload, hv⟩ := List.exists_cons_of_length_eq_add_one (length_encodeTV v)
        have hlen : payload.length = 8 := by
          have := length_encodeTV v
          rw [hv] at this
          simpa using this
        have hslot : ((payload ++ (tvs.flatMap encodeTV ++ extra)).take m).take 8 = payload.take m := by
          rw [List.take_take, Nat.min_comm, ← List.take_take, List.take_left' hlen]
        have hrest : ((payload ++ (tvs.flatMap encodeTV ++ extra)).take m).drop 8 =
            (tvs.flatMap encodeTV ++ extra).take (m - 8) := by
          rw [List.drop_take, List.drop_left' hlen]
        intro s hs
        rw [List.flatMap_cons, hv, List.append_assoc, List.cons_append, List.take_succ_cons, taggedSlots, hslot,
          hrest] at hs
        rcases List.mem_cons.1 hs with rfl | hs
        · exact ⟨v, m, by simp [hv]⟩
        · exact ih k (m - 8) (by simpa using hk) s hs

/-- The frame of a command, cut short within its body or followed by bytes, has no reserved tag and no non-zero
`NONINT` payload. -/
theorem slots_of_frameWith_body (i : Instr) (m : Nat) (extra : Bytes) (hn : i.count < 2 ^ 64) :
    hasReservedTag (i.frameWith i.count ((i.body ++ extra).take m)) = false ∧
    hasNonintPayload (i.frameWith i.count ((i.body ++ extra).take m)) = false := by
  have hlegal : ∀ s ∈ slotsOf (i.frameWith i.count ((i.body ++ extra).take m)), IsLegalSlot s := by
    rw [slotsOf_frameWith i _ hn]
    cases hs : i.isSeq with
    | false => simp
    | true =>
      have hlen : (i.entries.flatMap fun e => [e.key, e.val]).length = 2 * i.count := by
        simp [Instr.length_entries_of_isSeq hs, Nat.mul_comm]
      rw [if_pos rfl, Instr.body_of_isSeq hs, flatMap_encodeEntry]
      exact taggedSlots_take_legal _ m _ extra (by omega)
  rw [hasReservedTag, hasNonintPayload, List.any_eq_false, List.any_eq_false]
  exact ⟨fun s hs => Bool.eq_false_iff.1 (hlegal s hs).tag, fun s hs => Bool.eq_false_iff.1 (hlegal s hs).payload⟩

end Sys2Proof
end

section
/-! The decoder on frames that begin as a command's frame does (30_encoding.md R71 to R73): a command is read back, and
each way to spoil its frame is refused by name. -/

namespace Sys2Proof

/-- The decoder looks for the reasons of R71 in their order. -/
theorem decode_eq_ite (p : Params) (f : Bytes) : decode p f =
    if hasReservedHeaderBits f then .error .reservedHeaderBits
    else if hasReservedTag f then .error .reservedTag
    else if hasNonintPayload f then .error .nonintPayload
    else if isOverMaxDataLen p f then .error .overMaxDataLen
    else if isOverMaxSeqLen p f then .error .overMaxSeqLen
    else if isTruncated f then .error .truncated
    else if hasTrailingBytes f then .error .trailingBytes
    else if hasDuplicateKey f then .error .duplicateKey
    else .ok (readCommand f) := by
  unfold decode refusalOf refusalList
  split_ifs <;> simp [*]

/-- The bound on `LEN` or `COUNT` that applies to a command (R10). -/
def Params.bound (p : Params) (i : Instr) : Nat := if i.isSeq then p.maxSeqLen else p.maxDataLen

theorem wellFormed_iff {p : Params} {i : Instr} : WellFormed p i = true ↔
    i.count ≤ p.bound i ∧ i.count < 2 ^ 64 ∧ keysDistinct i.entries = true := by
  cases i with
  | valueB _ | extendB _ _ => simp [WellFormed, dataFits, Params.bound, Instr.isSeq, Instr.count, Instr.entries,
      keysDistinct, intKeys]
  | valueS _ _ | extendS _ _ _ => simp [WellFormed, seqFits, Params.bound, Instr.isSeq, Instr.count, Instr.entries,
      and_assoc]

theorem overBound_frameWith (p : Params) (i : Instr) (body : Bytes) (hn : i.count < 2 ^ 64)
    (hb : i.count ≤ p.bound i) : isOverMaxDataLen p (i.frameWith i.count body) = false ∧
      isOverMaxSeqLen p (i.frameWith i.count body) = false := by
  rw [isOverMaxDataLen_frameWith i body hn, isOverMaxSeqLen_frameWith i body hn]
  unfold Params.bound at hb
  cases hs : i.isSeq <;> simp_all

/-- A frame within the bounds, cut short in its body or followed by bytes, can only have a wrong length or a duplicate
key. -/
theorem decode_frameWith_body (p : Params) (i : Instr) (m : Nat) (extra : Bytes) (hn : i.count < 2 ^ 64)
    (hb : i.count ≤ p.bound i) {f : Bytes} (hf : f = i.frameWith i.count ((i.body ++ extra).take m)) :
    decode p f = if isTruncated f then .error .truncated
      else if hasTrailingBytes f then .error .trailingBytes
      else if hasDuplicateKey f then .error .duplicateKey
      else .ok (readCommand f) := by
  subst hf
  obtain ⟨htag, hpayload⟩ := slots_of_frameWith_body i m extra hn
  obtain ⟨hdata, hseq⟩ := overBound_frameWith p i ((i.body ++ extra).take m) hn hb
  have hheader : hasReservedHeaderBits (i.frameWith i.count ((i.body ++ extra).take m)) = false :=
    hasReservedHeaderBits_of_header (header?_frameWith i _)
  simp only [decode_eq_ite, hheader, htag, hpayload, hdata, hseq, Bool.false_eq_true, if_false]

/-! ### The whole frame -/

theorem encode_eq_frameWith_take (i : Instr) :
    encode i = i.frameWith i.count ((i.body ++ []).take i.body.length) := by
  rw [encode_eq_frameWith, List.append_nil, List.take_length]

theorem hasDuplicateKey_encode (i : Instr) (hn : i.count < 2 ^ 64) :
    hasDuplicateKey (encode i) = !keysDistinct i.entries := by
  rw [encode_eq_frameWith, hasDuplicateKey_frameWith i i.body hn]
  cases i with
  | valueB _ | extendB _ _ => rfl
  | valueS _ seq | extendS _ seq _ =>
    rw [Instr.isSeq, Bool.true_and]
    exact congrArg (fun l => !keysDistinct l) (readEntries_flatMap seq)

/-- Within the bounds the frame of a command is refused for a duplicate key, or not at all. -/
theorem decode_encode_of_bound (p : Params) (i : Instr) (hn : i.count < 2 ^ 64) (hb : i.count ≤ p.bound i) :
    decode p (encode i) =
      if keysDistinct i.entries then .ok (readCommand (encode i)) else .error .duplicateKey := by
  have hlen : isTruncated (encode i) = false ∧ hasTrailingBytes (encode i) = false := by
    rw [encode_eq_frameWith, isTruncated_frameWith i _ hn, hasTrailingBytes_frameWith i _ hn, i.length_body]
    simp
  rw [decode_frameWith_body p i i.body.length [] hn hb (encode_eq_frameWith_take i), hlen.1, hlen.2,
    hasDuplicateKey_encode i hn]
  cases keysDistinct i.entries <;> rfl

theorem encode_extendS_fields (esize : I64) (seq : List Entry) (prior : I64) : encode (.extendS esize seq prior) =
    leBytes 4 3 ++ (leBytes 8 esize.toNat ++ (leBytes 8 prior.toNat ++ encodeSeq seq)) := by
  simp only [encode, headerWord, encodeOperands, List.append_assoc]

theorem readCommand_encode (i : Instr) (hn : i.count < 2 ^ 64) : readCommand (encode i) = i := by
  have hbody : (encode i).drop (bodyOffset (encode i)) = i.body := by
    rw [encode_eq_frameWith, drop_bodyOffset_frameWith]
  have hentries : entriesOf (encode i) = readEntries i.count i.body := by
    rw [encode_eq_frameWith, entriesOf_frameWith i i.body hn]
  have hheader : header? (encode i) = some (headerWord i) := by
    rw [encode_eq_frameWith]
    exact header?_frameWith i i.body
  have hs := sBit_of_header hheader
  rw [readCommand, xBit_of_header hheader, hs]
  cases i with
  | valueB data => exact congrArg Instr.valueB hbody
  | valueS esize seq =>
    have hesize : esizeOf (encode (.valueS esize seq)) = esize := i64At_append (length_leBytes ..) esize _
    simp only [Instr.hasPrior, Instr.isSeq, hesize, hentries]
    exact congrArg (Instr.valueS esize) (readEntries_flatMap seq)
  | extendB data prior =>
    have hprior : priorOf (encode (.extendB data prior)) = prior := by
      rw [priorOf, hs]
      exact i64At_append (length_leBytes ..) prior _
    simp only [Instr.hasPrior, Instr.isSeq, hprior]
    exact congrArg (Instr.extendB · prior) hbody
  | extendS esize seq prior =>
    have hesize : esizeOf (encode (.extendS esize seq prior)) = esize := by
      rw [encode_extendS_fields]
      exact i64At_append (length_leBytes ..) esize _
    have hprior : priorOf (encode (.extendS esize seq prior)) = prior := by
      rw [priorOf, hs, encode_extendS_fields, ← List.append_assoc]
      exact i64At_append (by simp [Instr.isSeq]) prior _
    simp only [Instr.hasPrior, Instr.isSeq, hesize, hprior, hentries]
    exact congrArg (Instr.extendS esize · prior) (readEntries_flatMap seq)

/-- Settles O47: within the bounds only a duplicate key refuses the frame of a command, and the fields are read back. -/
theorem decodeUndoesEncode : Obligations.DecodeUndoesEncode := by
  intro p i hw
  obtain ⟨hb, hn, hkeys⟩ := wellFormed_iff.1 hw
  rw [decode_encode_of_bound p i hn hb, hkeys, if_pos rfl, readCommand_encode i hn]

/-! ### Spoilt frames -/

/-- A frame that ends before `LEN` or `COUNT` does has no tagged values and no count, and is TRUNCATED (log entry 7). -/
theorem decode_of_no_count {p : Params} {f : Bytes} (hh : hasReservedHeaderBits f = false) (hc : count? f = none) :
    decode p f = .error .truncated := by
  have hslots : slotsOf f = [] := by simp [slotsOf, hc]
  simp [decode_eq_ite, hh, hasReservedTag, hasNonintPayload, hslots, isOverMaxDataLen, isOverMaxSeqLen, isTruncated,
    frameLength?, hc]

theorem count?_of_short {f : Bytes} (h : f.length < countOffset f + 8) : count? f = none := by
  simp [count?, field?, h]

theorem four_le_countOffset (f : Bytes) : 4 ≤ countOffset f := by
  unfold countOffset
  omega

/-- Cutting in front of the body leaves no count to read. -/
theorem decode_take_of_short (p : Params) (i : Instr) {k : Nat} (hk : k < i.fixedFields.length + 8) :
    decode p ((encode i).take k) = .error .truncated := by
  by_cases h4 : 4 ≤ k
  case pos =>
    have hheader : header? ((encode i).take k) = some (headerWord i) := by
      rw [encode, List.take_append, List.take_of_length_le (by simpa using h4)]
      exact header?_append (headerWord_lt i) _
    refine decode_of_no_count (hasReservedHeaderBits_of_header hheader) (count?_of_short ?_)
    rw [countOffset_of_header hheader]
    exact (List.length_take_le ..).trans_lt hk
  case neg =>
    have hlen : ((encode i).take k).length < 4 := (List.length_take_le ..).trans_lt (not_le.1 h4)
    have hnone : header? ((encode i).take k) = none := by
      rw [header?, field?, if_neg (by omega), Option.map_none]
    refine decode_of_no_count (by rw [hasReservedHeaderBits, hnone]) (count?_of_short ?_)
    have := four_le_countOffset ((encode i).take k)
    omega

/-- Settles O46: a cut in front of the body leaves no count to read; one in the body, or a further byte, leaves the
other fields as they were, so that only the length is wrong. -/
theorem wrongFrameLengthsAreRefused : Obligations.WrongFrameLengthsAreRefused := by
  intro p i hw
  obtain ⟨hb, hn, -⟩ := wellFormed_iff.1 hw
  have hlen : (encode i).length = i.fixedFields.length + 8 + i.body.length := by
    rw [encode_eq_frameWith, length_frameWith]
  refine ⟨fun k hk => ?truncated, fun extra he => ?trailing⟩
  case truncated =>
    by_cases hshort : k < i.fixedFields.length + 8
    · exact decode_take_of_short p i hshort
    · obtain ⟨m, rfl⟩ := Nat.exists_eq_add_of_le (not_lt.1 hshort)
      have hcut : (encode i).take (i.fixedFields.length + 8 + m) =
          i.frameWith i.count ((i.body ++ []).take m) := by
        rw [encode_eq_frameWith, Instr.frameWith, Instr.frameWith, ← List.append_assoc, ← List.append_assoc,
          List.append_nil, List.take_append, List.take_of_length_le (by simp)]
        simp
      have htrunc : isTruncated (i.frameWith i.count ((i.body ++ []).take m)) = true := by
        rw [isTruncated_frameWith i _ hn, ← i.length_body, List.append_nil, List.length_take]
        exact decide_eq_true (by omega)
      rw [decode_frameWith_body p i m [] hn hb hcut, hcut, htrunc, if_pos rfl]
  case trailing =>
    have hlong : encode i ++ extra =
        i.frameWith i.count ((i.body ++ extra).take (i.body ++ extra).length) := by
      rw [encode_eq_frameWith, List.take_length]
      simp [Instr.frameWith]
    have hextra := List.length_pos_of_ne_nil he
    have htrunc : isTruncated (encode i ++ extra) = false := by
      rw [hlong, isTruncated_frameWith i _ hn, ← i.length_body]
      simp
    have htrail : hasTrailingBytes (encode i ++ extra) = true := by
      rw [hlong, hasTrailingBytes_frameWith i _ hn, ← i.length_body]
      simpa using hextra
    rw [decode_frameWith_body p i _ extra hn hb hlong, htrunc, htrail]
    rfl

/-- What the decoder says of a frame over its bound: the reasons before that one do not apply. -/
theorem decode_encode_of_over (p : Params) (i : Instr) (hn : i.count < 2 ^ 64) (hover : p.bound i < i.count) :
    decode p (encode i) = .error (if i.isSeq then .overMaxSeqLen else .overMaxDataLen) := by
  obtain ⟨htag, hpayload⟩ := slots_of_frameWith_body i i.body.length [] hn
  rw [← encode_eq_frameWith_take] at htag hpayload
  have hheader : hasReservedHeaderBits (encode i) = false := by
    rw [encode_eq_frameWith]
    exact hasReservedHeaderBits_of_header (header?_frameWith i i.body)
  have hdata : isOverMaxDataLen p (encode i) = (!i.isSeq && decide (p.maxDataLen < i.count)) := by
    rw [encode_eq_frameWith]
    exact isOverMaxDataLen_frameWith i i.body hn p
  have hseq : isOverMaxSeqLen p (encode i) = (i.isSeq && decide (p.maxSeqLen < i.count)) := by
    rw [encode_eq_frameWith]
    exact isOverMaxSeqLen_frameWith i i.body hn p
  rw [decode_eq_ite, hheader, htag, hpayload, hdata, hseq]
  unfold Params.bound at hover
  cases hs : i.isSeq <;> simp_all

/-- Settles O45: nothing but the bound is wrong with the frame. -/
theorem commandsOverTheBoundsAreRefused : Obligations.CommandsOverTheBoundsAreRefused :=
  ⟨fun p data prior ho hn =>
      ⟨decode_encode_of_over p (.valueB data) hn ho, decode_encode_of_over p (.extendB data prior) hn ho⟩,
    fun p esize prior seq ho hn =>
      ⟨decode_encode_of_over p (.valueS esize seq) hn ho, decode_encode_of_over p (.extendS esize seq prior) hn ho⟩⟩

end Sys2Proof
end

section
/-! A frame that decodes is the one frame of its command (30_encoding.md R73). -/

namespace Sys2Proof

/-- A frame in which none of the reasons for a wrong header or length applies: what its header and its count are, and
where its body begins. -/
theorem fields_of_right_length {f : Bytes} (hh : hasReservedHeaderBits f = false) (ht : isTruncated f = false)
    (hl : hasTrailingBytes f = false) :
    leNat (f.take 4) < 4 ∧ header? f = some (leNat (f.take 4)) ∧
    ∃ n, count? f = some n ∧ n < 2 ^ 64 ∧ leBytes 8 n = (f.drop (countOffset f)).take 8 ∧
      f.length = bodyOffset f + unitLen f * n := by
  cases hc : count? f with
  | none => simp [isTruncated, frameLength?, hc] at ht
  | some n =>
    have hlen : f.length = bodyOffset f + unitLen f * n := by
      simp only [isTruncated, hasTrailingBytes, frameLength?, hc, Option.map_some, decide_eq_false_iff_not] at ht hl
      omega
    have hoff := four_le_countOffset f
    have hbody : bodyOffset f = countOffset f + 8 := rfl
    have hheader : header? f = some (leNat (f.take 4)) := by
      rw [header?, field?, if_pos (by omega), List.drop_zero, Option.map_some]
    have hn : n = leNat ((f.drop (countOffset f)).take 8) := by
      rw [count?, field?, if_pos (by omega), Option.map_some] at hc
      exact (Option.some.inj hc).symm
    have hlt := leNat_lt ((f.drop (countOffset f)).take 8)
    rw [List.length_take, List.length_drop, Nat.min_eq_left (by omega)] at hlt
    rw [hasReservedHeaderBits, hheader, decide_eq_false_iff_not] at hh
    refine ⟨not_le.1 hh, hheader, n, rfl, ?_, ?_, hlen⟩
    · rw [hn]
      exact hlt
    · rw [hn]
      exact leBytes_leNat_field (by omega)

theorem header?_readCommand {f : Bytes} {h : Nat} (hh : header? f = some h) (h4 : h < 4) :
    headerWord (readCommand f) = h := by
  have hs : sBit f = h.testBit 0 := by rw [sBit, hh]
  have hx : xBit f = h.testBit 1 := by rw [xBit, hh]
  rw [readCommand, hs, hx]
  interval_cases h <;> rfl

/-- The operand fields that were read are written back as they were. -/
theorem operandFields_readCommand {f : Bytes} (h : countOffset f ≤ f.length) :
    (readCommand f).operandFields = (f.drop 4).take (countOffset f - 4) := by
  unfold countOffset at h ⊢
  unfold readCommand
  cases hx : xBit f <;> cases hs : sBit f <;> simp only [hx, hs, if_true, Bool.false_eq_true, if_false] at h ⊢
  case false.false => simp [Instr.operandFields]
  case false.true => exact leBytes_i64At h
  case true.false =>
    rw [Instr.operandFields, priorOf, hs]
    exact leBytes_i64At h
  case true.true =>
    rw [Instr.operandFields, priorOf, hs, esizeOf, if_pos rfl, leBytes_i64At (by omega), leBytes_i64At h]
    rw [show 4 + 8 + 8 - 4 = 8 + 8 from rfl, List.take_add, List.drop_drop]

theorem isSeq_readCommand (f : Bytes) : (readCommand f).isSeq = sBit f := by
  unfold readCommand
  cases xBit f <;> cases sBit f <;> rfl

theorem entries_readCommand (f : Bytes) : (readCommand f).entries = if sBit f then entriesOf f else [] := by
  unfold readCommand
  cases xBit f <;> cases sBit f <;> rfl

theorem body_readCommand (f : Bytes) :
    (readCommand f).body = if sBit f then (entriesOf f).flatMap encodeEntry else dataOf f := by
  unfold readCommand
  cases xBit f <;> cases sBit f <;> rfl

theorem count_readCommand (f : Bytes) :
    (readCommand f).count = if sBit f then (entriesOf f).length else (dataOf f).length := by
  unfold readCommand
  cases xBit f <;> cases sBit f <;> rfl

/-- The body that was read is written back as it was, and its count is the one that was read. -/
theorem body_readCommand_of_legal {f : Bytes} {n : Nat} (hc : count? f = some n)
    (hlen : f.length = bodyOffset f + unitLen f * n) (htag : hasReservedTag f = false)
    (hpayload : hasNonintPayload f = false) :
    (readCommand f).body = f.drop (bodyOffset f) ∧ (readCommand f).count = n := by
  rw [body_readCommand, count_readCommand]
  cases hs : sBit f with
  | false =>
    have hunit : unitLen f = 1 := by simp [unitLen, hs]
    refine ⟨rfl, ?_⟩
    rw [if_neg Bool.false_ne_true, dataOf, List.length_drop, hlen, hunit]
    omega
  | true =>
    have hunit : unitLen f = 18 := by simp [unitLen, hs]
    have hslots : slotsOf f = taggedSlots (min (2 * n) f.length) (f.drop (bodyOffset f)) := by
      simp [slotsOf, hs, hc]
    have hentries : entriesOf f = readEntries n (f.drop (bodyOffset f)) := by simp [entriesOf, hc]
    rw [hasReservedTag, hslots] at htag
    rw [hasNonintPayload, hslots] at hpayload
    rw [hunit] at hlen
    rw [if_pos rfl, if_pos rfl, hentries]
    exact flatMap_encodeEntry_readEntries n _ _ (by omega) (by rw [List.length_drop]; omega) htag hpayload

/-- A command read from a frame within the bounds and without a duplicate key is well-formed. -/
theorem wellFormed_readCommand {p : Params} {f : Bytes} {n : Nat} (hc : count? f = some n) (hn : n < 2 ^ 64)
    (hcount : (readCommand f).count = n) (hdata : isOverMaxDataLen p f = false) (hseq : isOverMaxSeqLen p f = false)
    (hdup : hasDuplicateKey f = false) : WellFormed p (readCommand f) = true := by
  have hkeys : keysDistinct (readCommand f).entries = true := by
    rw [entries_readCommand]
    cases hs : sBit f with
    | false => rfl
    | true => simpa [hasDuplicateKey, hs] using hdup
  have hbound : n ≤ p.bound (readCommand f) := by
    rw [Params.bound, isSeq_readCommand]
    cases hs : sBit f with
    | false => simpa [isOverMaxDataLen, hc, hs] using hdata
    | true => simpa [isOverMaxSeqLen, hc, hs] using hseq
  rw [wellFormed_iff, hcount]
  exact ⟨hbound, hn, hkeys⟩

/-- Settles O48: the frame is the fields that were read, written one after another; a field that would not be written
back as it was is refused. -/
theorem encodeUndoesDecode : Obligations.EncodeUndoesDecode := by
  intro p f i hd
  obtain ⟨hnone, rfl⟩ := decode_eq_ok.1 hd
  obtain ⟨hh, htag, hpayload, hdata, hseq, ht, hl, hdup⟩ := refusalOf_eq_none.1 hnone
  obtain ⟨h4, hheader, n, hc, hn, hwritten, hlen⟩ := fields_of_right_length hh ht hl
  obtain ⟨hbody, hcount⟩ := body_readCommand_of_legal hc hlen htag hpayload
  refine ⟨?_, wellFormed_readCommand hc hn hcount hdata hseq hdup⟩
  have hoff := four_le_countOffset f
  have hfit : countOffset f + 8 ≤ f.length := by rw [hlen, bodyOffset]; omega
  have hword : leBytes 4 (leNat (f.take 4)) = f.take 4 := leBytes_leNat_field (f := f) (off := 0) (by omega)
  calc encode (readCommand f)
      = (f.take 4 ++ (f.drop 4).take (countOffset f - 4)) ++
          ((f.drop (countOffset f)).take 8 ++ f.drop (bodyOffset f)) := by
        rw [encode_eq_frameWith, Instr.frameWith, Instr.fixedFields, header?_readCommand hheader h4, hword,
          operandFields_readCommand (by omega), hcount, hwritten, hbody]
    _ = f.take (countOffset f) ++ f.drop (countOffset f) := by
        rw [← List.take_add, Nat.add_sub_cancel' hoff, bodyOffset, ← List.drop_drop, List.take_append_drop]
    _ = f := List.take_append_drop _ f

end Sys2Proof
end

section
/-! What the commands leave in the state besides their response: the marshaler's state change, the two ends of a
sequence command, and all that a command can do. -/

namespace Sys2Proof.Machine

/-! ### The marshaler's state change -/

theorem marshalSeq_of_illegal_size {esize : I64} (h : esizeOfInt esize.toInt = none) (seq : List Entry) (s : State) :
    marshalSeq esize seq s = (s, .error .invalidElementSize) := by
  simp [marshalSeq, h]

/-- With a legal size, `ESZ` is latched and `EBUF` is written below that size only. -/
theorem marshalSeq_frame_of_size {esize : I64} {n : ESize} (hn : esizeOfInt esize.toInt = some n) (seq : List Entry)
    (s : State) : ∃ buf, (marshalSeq esize seq s).1 = { s with esz := n, ebuf := buf } ∧
      buf.drop n.toNat = s.ebuf.drop n.toNat := by
  unfold marshalSeq
  rw [hn]
  cases seq.any hasNonIntegerKey with
  | true => exact ⟨s.ebuf, rfl, rfl⟩
  | false =>
    obtain ⟨buf, hstate, hupper, -⟩ := marshalWalk_frame n (sortByPosition seq) (s.withEsz n)
    exact ⟨buf, hstate, hupper⟩

section
variable (esize : I64) (seq : List Entry) (s : State)

@[simp] theorem marshalSeq_acc : (marshalSeq esize seq s).1.acc = s.acc := by
  obtain ⟨z, buf, h, -⟩ := marshalSeq_frame esize seq s
  rw [h]

@[simp] theorem marshalSeq_choices : (marshalSeq esize seq s).1.choices = s.choices := by
  obtain ⟨z, buf, h, -⟩ := marshalSeq_frame esize seq s
  rw [h]

@[simp] theorem marshalSeq_params : (marshalSeq esize seq s).1.params = s.params := by
  obtain ⟨z, buf, h, -⟩ := marshalSeq_frame esize seq s
  rw [h]

theorem marshalSeq_ebuf_length (h8 : s.ebuf.length = 8) : (marshalSeq esize seq s).1.ebuf.length = 8 := by
  obtain ⟨z, buf, h, hlen⟩ := marshalSeq_frame esize seq s
  rw [h]
  exact hlen h8

end

/-! ### The two ends of a sequence command -/

theorem checksumSeq_of_error {esize : I64} {seq : List Entry} {k : ErrorKind}
    (h : seqCanonicalError esize seq = some k) (c : U32) (s : State) :
    checksumSeq c esize seq s = (marshalSeq esize seq s).1.raise k (seqErrors esize seq) := by
  have hres := marshalSeq_of_error h s
  unfold checksumSeq
  generalize marshalSeq esize seq s = m at hres ⊢
  obtain ⟨t, x⟩ := m
  cases hres
  rfl

theorem checksumSeq_of_no_error {esize : I64} {seq : List Entry} (h : seqCanonicalError esize seq = none) (c : U32)
    (s : State) : checksumSeq c esize seq s =
      ((marshalSeq esize seq s).1.runEngine c (commandBytes (.valueS esize seq))).respondChecksum := by
  have hres := marshalSeq_of_no_error h s
  unfold checksumSeq
  generalize marshalSeq esize seq s = m at hres ⊢
  obtain ⟨t, x⟩ := m
  cases hres
  rfl

@[simp] theorem checksumSeq_ebuf (c : U32) (esize : I64) (seq : List Entry) (s : State) :
    (checksumSeq c esize seq s).ebuf = (marshalSeq esize seq s).1.ebuf := by
  cases h : seqCanonicalError esize seq with
  | some k => rw [checksumSeq_of_error h, State.raise_ebuf]
  | none => rw [checksumSeq_of_no_error h, State.respondChecksum_ebuf, State.runEngine_ebuf]

@[simp] theorem checksumSeq_esz (c : U32) (esize : I64) (seq : List Entry) (s : State) :
    (checksumSeq c esize seq s).esz = (marshalSeq esize seq s).1.esz := by
  cases h : seqCanonicalError esize seq with
  | some k => rw [checksumSeq_of_error h, State.raise_esz]
  | none => rw [checksumSeq_of_no_error h, State.respondChecksum_esz, State.runEngine_esz]

/-! ### What a command does with its prior -/

section
variable {prior : I64} (s : State)

theorem exec_extendB_of_illegal_prior (h : checkPrior prior = .error .checksumOutOfRange) (data : Bytes) :
    exec (.extendB data prior) s = .next (s.raise .checksumOutOfRange (applicable (.extendB data prior))) := by
  simp [exec, execExtendB, h, applicable]

theorem exec_extendS_of_illegal_prior (h : checkPrior prior = .error .checksumOutOfRange) (esize : I64)
    (seq : List Entry) : exec (.extendS esize seq prior) s =
      .next (s.raise .checksumOutOfRange (applicable (.extendS esize seq prior))) := by
  simp [exec, execExtendS, h, applicable]

theorem exec_extendB_of_legal_prior {c : U32} (h : checkPrior prior = .ok c) (data : Bytes) :
    exec (.extendB data prior) s = .next (checksumBytes c data s) := by
  simp [exec, execExtendB, h]

theorem exec_extendS_of_legal_prior {c : U32} (h : checkPrior prior = .ok c) (esize : I64) (seq : List Entry) :
    exec (.extendS esize seq prior) s = .next (checksumSeq c esize seq s) := by
  simp [exec, execExtendS, h]

end

/-- All that a command can do: raise the prior's error, or end in the tail of a `.B` or a `.S` command. -/
theorem exec_cases {i : Instr} {s t : State} (h : exec i s = .next t) :
    t = s.raise .checksumOutOfRange (applicable i) ∨ (∃ c data, t = checksumBytes c data s) ∨
      ∃ c esize seq, t = checksumSeq c esize seq s := by
  cases i with
  | valueB data => cases h; exact .inr (.inl ⟨0, data, rfl⟩)
  | valueS esize seq => cases h; exact .inr (.inr ⟨0, esize, seq, rfl⟩)
  | extendB data prior =>
    cases hp : checkPrior prior with
    | error k =>
      obtain ⟨-, rfl⟩ := checkPrior_error hp
      cases (exec_extendB_of_illegal_prior s hp data).symm.trans h
      exact .inl rfl
    | ok c =>
      cases (exec_extendB_of_legal_prior s hp data).symm.trans h
      exact .inr (.inl ⟨c, data, rfl⟩)
  | extendS esize seq prior =>
    cases hp : checkPrior prior with
    | error k =>
      obtain ⟨-, rfl⟩ := checkPrior_error hp
      cases (exec_extendS_of_illegal_prior s hp esize seq).symm.trans h
      exact .inl rfl
    | ok c =>
      cases (exec_extendS_of_legal_prior s hp esize seq).symm.trans h
      exact .inr (.inr ⟨c, esize, seq, rfl⟩)

theorem exec_ebuf_length {i : Instr} {s t : State} (h : exec i s = .next t) (h8 : s.ebuf.length = 8) :
    t.ebuf.length = 8 := by
  obtain rfl | ⟨c, data, rfl⟩ | ⟨c, esize, seq, rfl⟩ := exec_cases h
  · exact h8
  · exact h8
  · rw [checksumSeq_ebuf]
    exact marshalSeq_ebuf_length esize seq s h8

end Sys2Proof.Machine
end

section
/-! The step of the machine (42_commands.md R140, 10_state.md R27, 70_reset_and_hazards.md R181, R184): one equation
per case, all that a step can do, and the invariant. -/

namespace Sys2Proof.Machine

/-! ### The cases of a step -/

section
variable {s : State} {f : Bytes} {i : Instr} {rest : List HostEvent}

theorem step_idle_nothing (hp : s.phase = .idle) (h : s.issued = []) : step s = .next s := by
  simp [step, hp, h]

/-- Reset comes first, in either phase (R181). -/
theorem step_reset (h : s.issued = .reset :: rest) : step s = .next (s.resetInstance rest) := by
  cases hp : s.phase <;> simp [step, hp, h]

theorem step_idle_issue (hp : s.phase = .idle) (h : s.issued = .issue f :: rest) (hd : decode s.params f = .ok i) :
    step s = exec i (s.accept i rest) := by
  simp [step, hp, h, hd]

theorem step_idle_accept (hp : s.phase = .idle) (h : s.issued = .accept f :: rest) (hd : decode s.params f = .ok i) :
    step s = .next (s.accept i rest) := by
  simp [step, hp, h, hd]

theorem step_idle_refused {r : FrameRefusal} (hp : s.phase = .idle)
    (h : s.issued = .issue f :: rest ∨ s.issued = .accept f :: rest) (hd : decode s.params f = .error r) :
    step s = .refused (.frame r) := by
  rcases h with h | h <;> simp [step, hp, h, hd]

/-- What a BUSY state does unless reset comes first (R184). -/
theorem step_busy (hp : s.phase = .busy) (h : s.issued.head? ≠ some .reset) : step s =
    match s.pending, s.outstanding with
    | some _, _ => .next s.deliver
    | none, some i => exec i s
    | none, none => .fault .busyWithoutCommand := by
  unfold step
  rw [hp]
  dsimp only
  split
  · contradiction
  · rfl

theorem step_busy_pending {r : Response} (hp : s.phase = .busy) (h : s.issued.head? ≠ some .reset)
    (hr : s.pending = some r) : step s = .next s.deliver := by
  rw [step_busy hp h, hr]

theorem step_busy_outstanding (hp : s.phase = .busy) (h : s.issued.head? ≠ some .reset) (hr : s.pending = none)
    (hi : s.outstanding = some i) : step s = exec i s := by
  rw [step_busy hp h, hr, hi]

end

/-- All that a step which answers a next state can have done. -/
theorem step_cases {s t : State} (h : step s = .next t) :
    t = s ∨
    (∃ rest, s.issued = .reset :: rest ∧ t = s.resetInstance rest) ∨
    (∃ f i rest, s.phase = .idle ∧ s.issued = .issue f :: rest ∧ decode s.params f = .ok i ∧
      exec i (s.accept i rest) = .next t) ∨
    (∃ f i rest, s.phase = .idle ∧ s.issued = .accept f :: rest ∧ decode s.params f = .ok i ∧ t = s.accept i rest) ∨
    (∃ r, s.pending = some r ∧ t = s.deliver) ∨
    ∃ i, s.outstanding = some i ∧ exec i s = .next t := by
  by_cases hreset : s.issued.head? = some .reset
  case pos =>
    obtain ⟨rest, hrest⟩ := List.head?_eq_some_iff.1 hreset
    cases (step_reset hrest).symm.trans h
    exact .inr (.inl ⟨rest, hrest, rfl⟩)
  case neg =>
    cases hp : s.phase with
    | idle =>
      cases hissued : s.issued with
      | nil =>
        cases (step_idle_nothing hp hissued).symm.trans h
        exact .inl rfl
      | cons e rest =>
        cases e with
        | reset => simp [hissued] at hreset
        | issue f =>
          cases hd : decode s.params f with
          | error r => cases (step_idle_refused hp (.inl hissued) hd).symm.trans h
          | ok i =>
            rw [step_idle_issue hp hissued hd] at h
            exact .inr (.inr (.inl ⟨f, i, rest, rfl, rfl, hd, h⟩))
        | accept f =>
          cases hd : decode s.params f with
          | error r => cases (step_idle_refused hp (.inr hissued) hd).symm.trans h
          | ok i =>
            cases (step_idle_accept hp hissued hd).symm.trans h
            exact .inr (.inr (.inr (.inl ⟨f, i, rest, rfl, rfl, hd, rfl⟩)))
    | busy =>
      rw [step_busy hp hreset] at h
      cases hr : s.pending with
      | some r =>
        rw [hr] at h
        cases h
        exact .inr (.inr (.inr (.inr (.inl ⟨r, rfl, rfl⟩))))
      | none =>
        cases hi : s.outstanding with
        | some i =>
          rw [hr, hi] at h
          exact .inr (.inr (.inr (.inr (.inr ⟨i, rfl, h⟩))))
        | none =>
          rw [hr, hi] at h
          cases h

/-! ### The statements about one step -/

/-- Settles O50: the three cases of a step that has a command to accept or to run. -/
theorem stepRunsTheDecodedCommand : Obligations.StepRunsTheDecodedCommand :=
  ⟨fun _ _ _ _ => step_idle_issue, fun _ _ _ _ => step_idle_accept,
    fun _ _ hp hr hi hh => step_busy_outstanding hp hh hr hi⟩

/-- Settles O51: the decoder's reason is the refusal of the step. -/
theorem refusedFramesGetNoStep : Obligations.RefusedFramesGetNoStep :=
  fun _ _ _ _ => step_idle_refused

/-- Settles O52: both ways run the command on the state that accepted it. -/
theorem acceptThenAnswerEqualsIssue : Obligations.AcceptThenAnswerEqualsIssue := by
  intro s f rest i hp hd hreset
  have haccept := step_idle_accept (s := { s with issued := .accept f :: rest }) hp rfl hd
  have hissue := step_idle_issue (s := { s with issued := .issue f :: rest }) hp rfl hd
  refine ⟨s.accept i rest, haccept, rfl, rfl, ?_⟩
  rw [hissue]
  exact step_busy_outstanding rfl hreset rfl rfl

/-- Settles O53: reset is the next event in either phase, and it drops what the machine holds. -/
theorem resetAbandonsTheCommand : Obligations.ResetAbandonsTheCommand :=
  fun s rest h => ⟨s.resetInstance rest, step_reset h, rfl, rfl, rfl, rfl, rfl, rfl⟩

/-! ### The invariant -/

theorem answers_of_exec {i : Instr} {s t : State} (h : exec i s = .next t) : Answers s t (s.answerTo i) := by
  obtain ⟨t', hexec, hans⟩ := exec_answers i s
  cases hexec.symm.trans h
  exact hans

/-- An IDLE state that holds nothing meets the invariant if its buffer has 8 bytes and its responses are legal. -/
theorem State.Inv.of_idle {s : State} (hp : s.phase = .idle) (ho : s.outstanding = none) (hr : s.pending = none)
    (h8 : s.ebuf.length = 8) (hd : ∀ r ∈ s.delivered, r.fromCore = true) : s.Inv where
  idleHoldsNothing := fun _ => ⟨ho, hr⟩
  busyHoldsACommand := fun h => by rw [hp] at h; cases h
  commandWellFormed := fun i h => by rw [ho] at h; cases h
  ebufHasEightBytes := h8
  pendingIsLegal := fun r h => by rw [hr] at h; cases h
  deliveredIsLegal := hd

section
variable {s : State} (h : s.Inv)
include h

theorem State.Inv.resetInstance (rest : List HostEvent) : (s.resetInstance rest).Inv :=
  .of_idle rfl rfl rfl rfl h.deliveredIsLegal

theorem State.Inv.accept {i : Instr} (hw : WellFormed s.params i = true) (rest : List HostEvent) :
    (s.accept i rest).Inv where
  idleHoldsNothing := fun hp => by cases hp
  busyHoldsACommand := fun _ => ⟨i, rfl⟩
  commandWellFormed := fun j hj => by cases hj; exact hw
  ebufHasEightBytes := h.ebufHasEightBytes
  pendingIsLegal := fun r hr => by cases hr
  deliveredIsLegal := h.deliveredIsLegal

theorem State.Inv.deliver : s.deliver.Inv := by
  refine .of_idle rfl rfl rfl h.ebufHasEightBytes fun r hr => ?_
  rcases List.mem_append.1 hr with hr | hr
  · exact h.deliveredIsLegal r hr
  · exact h.pendingIsLegal r (Option.mem_toList.1 hr)

theorem State.Inv.exec {i : Instr} {t : State} (hexec : exec i s = .next t) : t.Inv := by
  have hans := answers_of_exec hexec
  refine .of_idle hans.phase hans.outstanding hans.pending (exec_ebuf_length hexec h.ebufHasEightBytes) fun r hr => ?_
  rw [hans.delivered] at hr
  rcases List.mem_append.1 hr with hr | hr
  · exact h.deliveredIsLegal r hr
  · rw [List.mem_singleton.1 hr]
    exact s.answerTo_fromCore i

end

/-- Settles O54: reset holds nothing, and its buffer has 8 bytes. -/
theorem invariantHoldsAtReset : Obligations.InvariantHoldsAtReset :=
  ⟨rfl, rfl, rfl, .of_idle rfl rfl rfl rfl fun _ h => by cases h⟩

/-- Settles O55: each thing a step can do keeps the invariant; a decoded command is well-formed. -/
theorem everyStepKeepsTheInvariant : Obligations.EveryStepKeepsTheInvariant := by
  intro s t hinv hstep
  have haccept : ∀ {f : Bytes} {i : Instr} (rest : List HostEvent), decode s.params f = .ok i →
      (s.accept i rest).Inv := fun rest hd => hinv.accept (encodeUndoesDecode _ _ _ hd).2 rest
  obtain rfl | ⟨rest, -, rfl⟩ | ⟨f, i, rest, -, -, hd, hexec⟩ | ⟨f, i, rest, -, -, hd, rfl⟩ | ⟨r, -, rfl⟩ |
    ⟨i, -, hexec⟩ := step_cases hstep
  case inl => exact hinv
  case inr.inl => exact hinv.resetInstance rest
  case inr.inr.inl => exact (haccept rest hd).exec hexec
  case inr.inr.inr.inl => exact haccept rest hd
  case inr.inr.inr.inr.inl => exact hinv.deliver
  case inr.inr.inr.inr.inr => exact hinv.exec hexec

/-! ### A Host that keeps its obligations -/

/-- A step takes at most the next event, and changes no parameter. -/
theorem step_issued_params {s t : State} (h : step s = .next t) :
    (∀ e ∈ t.issued, e ∈ s.issued) ∧ t.params = s.params := by
  obtain rfl | ⟨rest, hissued, rfl⟩ | ⟨f, i, rest, -, hissued, -, hexec⟩ | ⟨f, i, rest, -, hissued, -, rfl⟩ |
    ⟨r, -, rfl⟩ | ⟨i, -, hexec⟩ := step_cases h
  case inl => exact ⟨fun _ he => he, rfl⟩
  case inr.inl => exact ⟨fun _ he => hissued ▸ List.mem_cons_of_mem _ he, rfl⟩
  case inr.inr.inl =>
    have hans := answers_of_exec hexec
    rw [hans.issued]
    exact ⟨fun _ he => hissued ▸ List.mem_cons_of_mem _ he, hans.params⟩
  case inr.inr.inr.inl => exact ⟨fun _ he => hissued ▸ List.mem_cons_of_mem _ he, rfl⟩
  case inr.inr.inr.inr.inl => exact ⟨fun _ he => he, rfl⟩
  case inr.inr.inr.inr.inr =>
    have hans := answers_of_exec hexec
    rw [hans.issued]
    exact ⟨fun _ he => he, hans.params⟩

theorem decode_of_spellsCommand {p : Params} {f : Bytes} (h : spellsCommand p f = true) :
    ∃ i, decode p f = .ok i := by
  unfold spellsCommand at h
  cases hd : decode p f with
  | ok i => exact ⟨i, rfl⟩
  | error r => rw [hd] at h; cases h

/-- With the invariant and a legal Host, every case of a step answers a next state. -/
theorem step_next_of_legal {s : State} (hinv : s.Inv) (hhost : s.HostLegal) : ∃ t, step s = .next t := by
  by_cases hreset : s.issued.head? = some .reset
  case pos =>
    obtain ⟨rest, hrest⟩ := List.head?_eq_some_iff.1 hreset
    exact ⟨_, step_reset hrest⟩
  case neg =>
    cases hp : s.phase with
    | idle =>
      cases hissued : s.issued with
      | nil => exact ⟨s, step_idle_nothing hp hissued⟩
      | cons e rest =>
        have hlegal := hhost e (hissued ▸ List.mem_cons_self)
        cases e with
        | reset => exact ⟨_, step_reset hissued⟩
        | issue f =>
          obtain ⟨i, hd⟩ := decode_of_spellsCommand hlegal
          obtain ⟨t, hexec, -⟩ := exec_answers i (s.accept i rest)
          exact ⟨t, (step_idle_issue hp hissued hd).trans hexec⟩
        | accept f =>
          obtain ⟨i, hd⟩ := decode_of_spellsCommand hlegal
          exact ⟨_, step_idle_accept hp hissued hd⟩
    | busy =>
      obtain ⟨i, hi⟩ := hinv.busyHoldsACommand hp
      cases hr : s.pending with
      | some r => exact ⟨_, step_busy_pending hp hreset hr⟩
      | none =>
        obtain ⟨t, hexec, -⟩ := exec_answers i s
        exact ⟨t, (step_busy_outstanding hp hreset hr hi).trans hexec⟩

/-- Settles O56: the invariant rules out the fault and a legal Host the refusals; both are kept. -/
theorem legalHostIsNeverStopped : Obligations.LegalHostIsNeverStopped := by
  intro s hinv hhost
  obtain ⟨t, hstep⟩ := step_next_of_legal hinv hhost
  obtain ⟨hissued, hparams⟩ := step_issued_params hstep
  refine ⟨t, hstep, everyStepKeepsTheInvariant s t hinv hstep, fun e he => ?_⟩
  rw [hparams]
  exact hhost e (hissued e he)

end Sys2Proof.Machine
end

section
/-! The statements about the engine (40_engine.md R81, R89 to R99). -/

namespace Sys2Proof.Machine

/-- Settles O1: the two constants, bit by bit. -/
theorem reflectedPolynomialIsBitReversal : Obligations.ReflectedPolynomialIsBitReversal := by
  refine ⟨rfl, rfl, ?_⟩
  decide

/-! ### The equivalent steps (R89, R90) -/

/-- A shift with the data bits `w` in the register is a serial step with bit 0 of `w`, and the other bits one place
down. -/
theorem shiftStep_xor_eq_serialStep (s w : U32) :
    shiftStep (s ^^^ w) = serialStep s (w.getLsbD 0) ^^^ (w >>> 1) := by
  unfold shiftStep serialStep
  rw [BitVec.getLsbD_xor, BitVec.ushiftRight_xor_distrib]
  cases s.getLsbD 0 ^^ w.getLsbD 0 with
  | false => simp
  | true =>
    rw [if_pos rfl, if_pos rfl]
    ac_rfl

/-- A byte in the register is gone after eight places. -/
theorem setWidth_shiftRight_eight (b : Byte) : (b.setWidth 32 : U32) >>> 8 = 0#32 := by
  apply BitVec.eq_of_getLsbD_eq
  intro i hi
  rw [BitVec.getLsbD_ushiftRight, BitVec.getLsbD_setWidth, BitVec.getLsbD_of_ge b _ (by omega), Bool.and_false,
    BitVec.getLsbD_zero]

/-- The serial steps with the last `k` bits of a byte are `k` shifts with those bits in the register. -/
theorem serialBits_eq_shiftSteps (b : Byte) (k j : Nat) (s : U32) (hjk : j + k = 8) :
    serialBits b j k s = shiftSteps k (s ^^^ (b.setWidth 32 >>> j)) := by
  induction k generalizing j s with
  | zero =>
    obtain rfl : j = 8 := by omega
    rw [setWidth_shiftRight_eight, BitVec.xor_zero]
    rfl
  | succ k ih =>
    have hbit : ((b.setWidth 32 : U32) >>> j).getLsbD 0 = b.getLsbD j := by
      simp only [BitVec.getLsbD_ushiftRight, BitVec.getLsbD_setWidth, Nat.add_zero]
      simp
      omega
    rw [serialBits, shiftSteps, ih (j + 1) _ (by omega), shiftStep_xor_eq_serialStep, hbit, BitVec.shiftRight_add]

/-- Settles O3: each serial step takes one bit of the byte out of the register. -/
theorem bitSerialEqualsByteStep : Obligations.BitSerialEqualsByteStep := by
  intro s b
  rw [serialByte, serialBits_eq_shiftSteps b 8 0 s rfl, byteStep_eq_shiftSteps, BitVec.ushiftRight_zero]

theorem tableEntry_eq_shiftSteps (i : Byte) : tableEntry i = shiftSteps 8 (i.setWidth 32) := by
  rw [tableEntry, byteStep_eq_shiftSteps]
  simp

/-- Clearing the low byte of the register, and then eight shifts, is a plain shift by eight. -/
theorem shiftSteps_eight_xor_lowByte (s : U32) :
    shiftSteps 8 (s ^^^ (s.setWidth 8).setWidth 32) = s >>> 8 := by
  rw [shiftSteps_of_low_zero 8]
  case h =>
    intro i hi
    simp only [BitVec.getLsbD_xor, BitVec.getLsbD_setWidth, hi, show i < 32 by omega, decide_true, Bool.true_and,
      Bool.xor_self]
  apply BitVec.eq_of_getLsbD_eq
  intro i hi
  simp [BitVec.getLsbD_setWidth, BitVec.getLsbD_ushiftRight]

/-- Settles O4: the shifts are linear, the table covers the low byte, and the rest is only shifted. -/
theorem tableStepEqualsByteStep : Obligations.TableStepEqualsByteStep := by
  refine ⟨fun _ => rfl, fun s b => ?_⟩
  generalize hx : s ^^^ b.setWidth 32 = x
  have hshift : s >>> 8 = x >>> 8 := by
    rw [← hx, BitVec.ushiftRight_xor_distrib, setWidth_shiftRight_eight, BitVec.xor_zero]
  calc s >>> 8 ^^^ tableEntry (x.setWidth 8)
      = shiftSteps 8 (x ^^^ (x.setWidth 8).setWidth 32) ^^^ shiftSteps 8 ((x.setWidth 8).setWidth 32) := by
        rw [hshift, shiftSteps_eight_xor_lowByte, tableEntry_eq_shiftSteps]
    _ = shiftSteps 8 x := by rw [← shiftSteps_xor, BitVec.xor_assoc, BitVec.xor_self, BitVec.xor_zero]
    _ = byteStep s b := by rw [← hx, byteStep_eq_shiftSteps]

/-! ### The table (R91) -/

section
set_option maxRecDepth 20000

theorem crcTable0_eq : crcTable0 = (List.range' 0 64).map fun i => tableEntry (BitVec.ofNat 8 i) := by decide
theorem crcTable1_eq : crcTable1 = (List.range' 64 64).map fun i => tableEntry (BitVec.ofNat 8 i) := by decide
theorem crcTable2_eq : crcTable2 = (List.range' 128 64).map fun i => tableEntry (BitVec.ofNat 8 i) := by decide
theorem crcTable3_eq : crcTable3 = (List.range' 192 64).map fun i => tableEntry (BitVec.ofNat 8 i) := by decide

theorem range'_of_four_parts :
    List.range' 0 64 ++ List.range' 64 64 ++ List.range' 128 64 ++ List.range' 192 64 = List.range' 0 256 := by decide

end

/-- The listed table is the 256 byte steps in order. -/
theorem crcTable_eq : crcTable = (List.range' 0 256).map fun i => tableEntry (BitVec.ofNat 8 i) := by
  rw [crcTable, crcTable0_eq, crcTable1_eq, crcTable2_eq, crcTable3_eq, ← List.map_append, ← List.map_append,
    ← List.map_append, range'_of_four_parts]

/-- Settles O5: the four parts of the table, entry by entry. -/
theorem tableContentsAreTheByteSteps : Obligations.TableContentsAreTheByteSteps := by
  have hentry : ∀ i : Byte, crcTable[i.toNat]? = some (tableEntry i) := fun i => by
    rw [crcTable_eq, List.getElem?_map, List.getElem?_range' i.isLt]
    simp
  refine ⟨by rw [crcTable_eq]; simp, hentry, rfl, rfl, rfl⟩

/-! ### The laws of the engine (R93 to R99) -/

/-- Settles O6: nothing is folded in, and `VALUE.B` starts from 0. -/
theorem extendByNothingIsIdentity : Obligations.ExtendByNothingIsIdentity := by
  refine ⟨engineExtend_nil, fun s => ?_⟩
  obtain ⟨t, hexec, hans⟩ := exec_answers (.valueB []) s
  exact ⟨t, hexec, hans⟩

theorem foldl_engineExtend (c : U32) (parts : List Bytes) :
    parts.foldl engineExtend c = engineExtend c parts.flatten := by
  induction parts generalizing c with
  | nil => exact (engineExtend_nil c).symm
  | cons a parts ih => rw [List.foldl_cons, ih, List.flatten_cons, engineExtend_append]

/-- Settles O8: part by part, the result so far is the prior of the next. -/
theorem extendIgnoresChunkBoundaries : Obligations.ExtendIgnoresChunkBoundaries := foldl_engineExtend

theorem foldBytes_injective (a : Bytes) : Function.Injective (foldBytes · a) := by
  induction a with
  | nil => exact fun _ _ h => h
  | cons b a ih => exact fun _ _ h => byteStep_injective b (ih h)

/-- Settles O9: the fold is injective, and a map of a finite type to itself is then surjective. -/
theorem extendIsBijectiveInChecksum : Obligations.ExtendIsBijectiveInChecksum := by
  intro a
  refine Finite.injective_iff_bijective.1 fun c c' h => ?_
  exact BitVec.xor_left_inj seed |>.1 (foldBytes_injective a (BitVec.xor_left_inj xorout |>.1 h))

/-- Two results of the same length, one inversion of the output cancelled: the fold of the sum. -/
theorem engineExtend_xor (c c' : U32) (a b : Bytes) (h : a.length = b.length) :
    engineExtend c a ^^^ engineExtend c' b = foldBytes (c ^^^ c') (List.zipWith (· ^^^ ·) a b) := by
  have hload : c ^^^ c' = (c ^^^ seed) ^^^ (c' ^^^ seed) := by
    calc c ^^^ c' = (c ^^^ c') ^^^ (seed ^^^ seed) := by rw [BitVec.xor_self, BitVec.xor_zero]
      _ = (c ^^^ seed) ^^^ (c' ^^^ seed) := by ac_rfl
  calc engineExtend c a ^^^ engineExtend c' b
      = (foldBytes (c ^^^ seed) a ^^^ foldBytes (c' ^^^ seed) b) ^^^ (xorout ^^^ xorout) := by
        unfold engineExtend
        ac_rfl
    _ = foldBytes (c ^^^ c') (List.zipWith (· ^^^ ·) a b) := by
        rw [BitVec.xor_self, BitVec.xor_zero, hload, foldBytes_xor _ _ _ _ h]

/-- Settles O10: both sums are the fold of the data's sum with itself from `c1 ^^^ c2`. -/
theorem extendIsAffineInChecksum : Obligations.ExtendIsAffineInChecksum := by
  intro c1 c2 a
  rw [engineExtend_xor c1 c2 a a rfl, engineExtend_xor (c1 ^^^ c2) 0 a a rfl]
  congr 1
  exact (BitVec.xor_zero ..).symm

theorem zipWith_xor_replicate_zero (a : Bytes) : List.zipWith (· ^^^ ·) a (List.replicate a.length 0) = a := by
  induction a with
  | nil => rfl
  | cons b a ih => simpa [List.replicate_succ] using ih

/-- Settles O11: the sum with the zeros of that length inverts the output once more. -/
theorem extendIsAffineInData : Obligations.ExtendIsAffineInData := by
  intro a b h
  have hab : engineExtend 0 (List.zipWith (· ^^^ ·) a b) ^^^ engineExtend 0 (List.replicate a.length 0) =
      engineExtend 0 a ^^^ engineExtend 0 b := by
    have hlen : (List.zipWith (· ^^^ ·) a b).length = a.length := by simp [h]
    rw [engineExtend_xor 0 0 a b h, ← hlen, engineExtend_xor 0 0 _ _ (by simp), zipWith_xor_replicate_zero]
  rw [← hab, BitVec.xor_assoc, BitVec.xor_self, BitVec.xor_zero]

/-- Folding in the register's own bytes, lowest first, shifts them out. -/
theorem foldBytes_own_bytes (k : Nat) (s : U32) : foldBytes s (leBytes k s.toNat) = s >>> (8 * k) := by
  induction k generalizing s with
  | zero => simp [leBytes, foldBytes]
  | succ k ih =>
    have hbyte : byteStep s (BitVec.ofNat 8 s.toNat) = s >>> 8 := by
      rw [byteStep_eq_shiftSteps, BitVec.ofNat_toNat, shiftSteps_eight_xor_lowByte]
    have hnext : s.toNat / 256 = (s >>> 8).toNat := by
      rw [BitVec.toNat_ushiftRight, Nat.shiftRight_eq_div_pow]
    rw [leBytes, foldBytes, hbyte, hnext, ih, ← BitVec.shiftRight_add, Nat.mul_succ, Nat.add_comm]

set_option maxRecDepth 8000 in
theorem engineExtend_four_zeroBytes : engineExtend 0 (List.replicate 4 0) = 0x48674BC7 := by decide

/-- Settles O12: the checksum's own bytes shift it out of the register, which leaves what four zero bytes give
from 0. -/
theorem appendedChecksumLeavesResidue : Obligations.AppendedChecksumLeavesResidue := by
  intro c a
  generalize engineExtend c a = r
  have hshifted : foldBytes r (leBytes 4 r.toNat) = 0#32 := by
    rw [foldBytes_own_bytes]
    exact BitVec.ushiftRight_eq_zero (by decide)
  have hsum : engineExtend r (leBytes 4 r.toNat) ^^^ engineExtend 0 (List.replicate 4 0) = 0#32 := by
    have hzip := zipWith_xor_replicate_zero (leBytes 4 r.toNat)
    rw [length_leBytes] at hzip
    rw [engineExtend_xor _ _ _ _ (by simp), hzip, ← hshifted]
    congr 1
    exact BitVec.xor_zero ..
  rw [← engineExtend_four_zeroBytes]
  exact BitVec.xor_eq_zero_iff.1 hsum

end Sys2Proof.Machine
end

section
/-! The statements about the marshaler (41_marshaler.md): its bytes, its errors and what it leaves in the registers. -/

namespace Sys2Proof.Machine

/-! ### The bytes of a sequence -/

/-- The number an entry's value is encoded from. -/
def valueOf : TaggedValue → Int
  | .int v => v.toInt
  | .nonint => 0

theorem value_eq_valueOf (e : Entry) : e.value = valueOf e.val := by
  unfold Entry.value
  cases e.val <;> rfl

/-- The bytes are those of the values in ascending position order; the positions themselves do not enter. -/
theorem sequenceBytes_eq_of_values {seq seq' : List Entry}
    (h : (sortByPosition seq).map (·.val) = (sortByPosition seq').map (·.val)) (n : ESize) :
    sequenceBytes n seq = sequenceBytes n seq' := by
  have hvals : ∀ l : List Entry,
      (l.flatMap fun e => encodeLE e.value n) = (l.map (·.val)).flatMap fun v => encodeLE (valueOf v) n := fun l => by
    simp only [List.flatMap_map, value_eq_valueOf]
  rw [sequenceBytes, sequenceBytes, hvals, hvals, h]

theorem commandBytes_eq_of_values {seq seq' : List Entry}
    (h : (sortByPosition seq).map (·.val) = (sortByPosition seq').map (·.val)) (esize : I64) :
    commandBytes (.valueS esize seq) = commandBytes (.valueS esize seq') := by
  simp only [commandBytes, sequenceBytes_eq_of_values h]

/-- Where no error of the sequence applies, none is canonical. -/
theorem seqCanonicalError_eq_none {esize : I64} {seq : List Entry} (h : seqErrors esize seq = []) :
    seqCanonicalError esize seq = none := by
  cases hc : seqCanonicalError esize seq with
  | none => rfl
  | some k =>
    have hmem := seqCanonicalError_mem hc
    rw [h] at hmem
    cases hmem

/-- Settles O17: the same bytes are folded into the same prior. -/
theorem gapsContributeNothing : Obligations.GapsContributeNothing := by
  refine ⟨fun n seq seq' h => sequenceBytes_eq_of_values h n, ?commands,
    fun n a b => sequenceBytes_eq_of_values rfl n⟩
  intro esize seq seq' s h he he'
  have hc := seqCanonicalError_eq_none he
  have hc' := seqCanonicalError_eq_none he'
  have hbytes := commandBytes_eq_of_values h esize
  refine ⟨?value, fun prior => ?extend⟩
  case value =>
    obtain ⟨t, hexec, hans⟩ := exec_answers (.valueS esize seq) s
    obtain ⟨t', hexec', hans'⟩ := exec_answers (.valueS esize seq') s
    rw [s.answerTo_of_no_error (i := .valueS esize seq) hc, hbytes] at hans
    rw [s.answerTo_of_no_error (i := .valueS esize seq') hc'] at hans'
    exact ⟨t, t', _, hexec, hexec', hans, hans'⟩
  case extend =>
    obtain ⟨t, hexec, hans⟩ := exec_answers (.extendS esize seq prior) s
    obtain ⟨t', hexec', hans'⟩ := exec_answers (.extendS esize seq' prior) s
    rw [s.answerTo_extendS_eq_extendB hc, hbytes] at hans
    rw [s.answerTo_extendS_eq_extendB hc'] at hans'
    exact ⟨t, t', _, hexec, hexec', hans, hans'⟩

/-- Settles O19: the encoding takes the value modulo `2^(8n)`, and the range spans both readings of a byte pattern. -/
theorem signedAndUnsignedEncodeAlike : Obligations.SignedAndUnsignedEncodeAlike := by
  refine ⟨fun v n => ?encoding, fun v n hlo hneg => ?range, by decide, by decide, by decide, by decide⟩
  case encoding => rw [encodeLE, encodeLE, Int.add_emod_right]
  case range =>
    have hdouble : (2 : Int) ^ (8 * n.toNat) = 2 * 2 ^ (8 * n.toNat - 1) := by cases n <;> rfl
    rw [inRange_eq_true, inRange_eq_true]
    unfold rangeLo rangeHi at *
    omega

/-- Settles O20: the marshaler's error is the canonical one, and with none it returns the bytes of the sequence. -/
theorem marshalSeqChecksThenEncodes : Obligations.MarshalSeqChecksThenEncodes := by
  refine ⟨fun esize seq s k hc => marshalSeq_of_error hc s, fun esize seq s hc => ?bytes, fun s => ?worked⟩
  case bytes =>
    cases hn : esizeOfInt esize.toInt with
    | none => simp [seqCanonicalError_of_illegal_size hn] at hc
    | some n => exact ⟨n, rfl, by rw [marshalSeq_of_no_error hc, commandBytes_valueS hn]⟩
  case worked => exact (marshalSeq_of_no_error (by decide) s).trans (congrArg Except.ok (by decide))

/-- In a list of chunks of `n` bytes, the `k`-th chunk begins at `n * k`. -/
theorem take_drop_flatMap {α : Type} (g : α → Bytes) (n : Nat) (hg : ∀ a, (g a).length = n) (l : List α) (k : Nat)
    (a : α) (h : l[k]? = some a) : ((l.flatMap g).drop (n * k)).take n = g a := by
  induction l generalizing k with
  | nil => cases h
  | cons b l ih =>
    rw [List.flatMap_cons]
    cases k with
    | zero =>
      cases h
      exact List.take_left' (hg a)
    | succ k =>
      rw [Nat.mul_succ, Nat.add_comm, ← List.drop_drop, List.drop_left' (hg b)]
      exact ih k h

theorem length_sequenceBytes (n : ESize) (seq : List Entry) :
    (sequenceBytes n seq).length = n.toNat * seq.length := by
  simp [sequenceBytes, List.length_flatMap, Nat.mul_comm]

/-- Settles O22: every value takes `n` bytes. -/
theorem marshalSeqOutputLength : Obligations.MarshalSeqOutputLength := by
  intro esize seq s t d n hn hm
  obtain ⟨-, rfl⟩ := marshalSeq_ok hm
  rw [commandBytes_valueS hn]
  exact ⟨length_sequenceBytes n seq,
    take_drop_flatMap (fun e : Entry => encodeLE e.value n) n.toNat (fun e => length_encodeLE e.value n) _⟩

/-! ### What the walk leaves in `EBUF` -/

/-- A second write of as many bytes hides the first. -/
theorem State.writeEbuf_writeEbuf (s : State) {a b : Bytes} (h : a.length = b.length) :
    (s.writeEbuf a).writeEbuf b = s.writeEbuf b := by
  simp [State.writeEbuf, ← h]

theorem marshalWalk_cons_of_pass {n : ESize} {e : Entry} (h : entryError n e = none) (l : List Entry) (s : State) :
    (marshalWalk n (e :: l) s).1 = (marshalWalk n l (s.writeEbuf (encodeLE e.value n))).1 := by
  simp [marshalWalk, h]

/-- Where every entry passes, the last one's bytes are left in `EBUF` (R121). -/
theorem marshalWalk_state_of_pass {n : ESize} {l : List Entry} (h : ∀ e ∈ l, entryError n e = none) (s : State)
    {last : Entry} (hlast : l.getLast? = some last) :
    (marshalWalk n l s).1 = s.writeEbuf (encodeLE last.value n) := by
  induction l generalizing s with
  | nil => cases hlast
  | cons e l ih =>
    rw [marshalWalk_cons_of_pass (h e List.mem_cons_self)]
    cases l with
    | nil =>
      cases hlast
      rfl
    | cons x xs =>
      rw [ih (fun y hy => h y (List.mem_cons_of_mem _ hy)) _ hlast, State.writeEbuf_writeEbuf]
      simp

theorem marshalSeq_state_of_integerKeys {esize : I64} {n : ESize} {seq : List Entry}
    (hn : esizeOfInt esize.toInt = some n) (hk : seq.any hasNonIntegerKey = false) (s : State) :
    marshalSeq esize seq s = marshalWalk n (sortByPosition seq) (s.withEsz n) := by
  simp [marshalSeq, hn, hk]

theorem integerKeys_of_seqCanonicalError_none {esize : I64} {n : ESize} {seq : List Entry}
    (hn : esizeOfInt esize.toInt = some n) (h : seqCanonicalError esize seq = none) :
    seq.any hasNonIntegerKey = false := by
  cases hk : seq.any hasNonIntegerKey with
  | false => rfl
  | true => simp [seqCanonicalError_of_nonIntegerKey hn hk] at h

/-- Settles O21: each value's bytes overwrite those of the one before. -/
theorem marshalSeqLeavesLastValueInEbuf : Obligations.MarshalSeqLeavesLastValueInEbuf := by
  intro esize seq s t d n e hn hm hlast
  obtain ⟨hc, -⟩ := marshalSeq_ok hm
  have hpass : ∀ x ∈ sortByPosition seq, entryError n x = none := fun x hx =>
    entryError_of_seqCanonicalError_none hn hc x (mem_sortByPosition.1 hx)
  have hstate := marshalWalk_state_of_pass hpass (s.withEsz n) hlast
  rw [← marshalSeq_state_of_integerKeys hn (integerKeys_of_seqCanonicalError_none hn hc), hm] at hstate
  simpa [State.writeEbuf, State.withEsz] using hstate

/-! ### The streaming form (R128) -/

/-- The walk does not read `ACC`. -/
theorem marshalWalk_withAcc (n : ESize) (l : List Entry) (s : State) (v : U32) :
    marshalWalk n l (s.withAcc v) = ((marshalWalk n l s).1.withAcc v, (marshalWalk n l s).2) := by
  induction l generalizing s with
  | nil => rfl
  | cons e l ih =>
    unfold marshalWalk
    cases entryError n e with
    | some k => rfl
    | none =>
      have hwrite : (s.withAcc v).writeEbuf (encodeLE e.value n) =
        (s.writeEbuf (encodeLE e.value n)).withAcc v := rfl
      simp only [hwrite, ih]
      rfl

@[simp] theorem marshalWalk_acc (n : ESize) (l : List Entry) (s : State) : (marshalWalk n l s).1.acc = s.acc := by
  obtain ⟨buf, h, -⟩ := marshalWalk_frame n l s
  rw [h]

theorem streamWalk_cons_of_pass {n : ESize} {e : Entry} (h : entryError n e = none) (l : List Entry) (s : State) :
    streamWalk n (e :: l) s = streamWalk n l
      ((s.writeEbuf (encodeLE e.value n)).withAcc (foldBytes s.acc (encodeLE e.value n))) := by
  simp only [streamWalk, h, readEbuf_writeEbuf_encodeLE]
  rfl

/-- The streaming walk stops with the error of the whole-sequence walk, and in the same state but for `ACC`. -/
theorem streamWalk_of_error {n : ESize} {l : List Entry} {k : ErrorKind} (h : l.findSome? (entryError n) = some k)
    (s : State) : ∃ v, streamWalk n l s = ((marshalWalk n l s).1.withAcc v, some k) := by
  induction l generalizing s with
  | nil => cases h
  | cons e l ih =>
    cases he : entryError n e with
    | some j =>
      rw [List.findSome?_cons, he] at h
      cases h
      exact ⟨s.acc, by simp [streamWalk, marshalWalk, he, State.withAcc]⟩
    | none =>
      rw [List.findSome?_cons, he] at h
      rw [streamWalk_cons_of_pass he, marshalWalk_cons_of_pass he]
      obtain ⟨v, hv⟩ := ih h ((s.writeEbuf (encodeLE e.value n)).withAcc (foldBytes s.acc (encodeLE e.value n)))
      rw [hv, marshalWalk_withAcc]
      exact ⟨v, rfl⟩

/-- Where every entry passes, the streaming walk folds the bytes that the whole-sequence walk returns. -/
theorem streamWalk_of_no_error {n : ESize} {l : List Entry} (h : l.findSome? (entryError n) = none) (s : State) :
    streamWalk n l s = ((marshalWalk n l s).1.foldAcc (l.flatMap fun e => encodeLE e.value n), none) := by
  induction l generalizing s with
  | nil => rfl
  | cons e l ih =>
    rw [List.findSome?_eq_none_iff] at h
    have he := h e List.mem_cons_self
    have hl : l.findSome? (entryError n) = none :=
      List.findSome?_eq_none_iff.2 fun x hx => h x (List.mem_cons_of_mem _ hx)
    rw [streamWalk_cons_of_pass he, marshalWalk_cons_of_pass he, ih hl, marshalWalk_withAcc, List.flatMap_cons]
    simp only [State.foldAcc, State.withAcc_acc, marshalWalk_acc, State.writeEbuf_acc, foldBytes_append]
    rfl

/-- The streaming form raises the same error, and leaves another `ACC` at most. -/
theorem streamSeq_of_error {esize : I64} {seq : List Entry} {k : ErrorKind} (h : seqCanonicalError esize seq = some k)
    (c : U32) (s : State) : ∃ v, streamSeq c esize seq s = (checksumSeq c esize seq s).withAcc v := by
  rw [checksumSeq_of_error h]
  cases hn : esizeOfInt esize.toInt with
  | none =>
    rw [seqCanonicalError_of_illegal_size hn] at h
    cases h
    exact ⟨s.acc, by simp only [streamSeq, hn, marshalSeq_of_illegal_size hn]; rfl⟩
  | some n =>
    cases hk : seq.any hasNonIntegerKey with
    | true =>
      rw [seqCanonicalError_of_nonIntegerKey hn hk] at h
      cases h
      exact ⟨s.acc, by simp only [streamSeq, marshalSeq, hn, hk, if_true]; rfl⟩
    | false =>
      rw [seqCanonicalError_of_integerKeys hn hk] at h
      obtain ⟨v, hv⟩ := streamWalk_of_error h ((s.withEsz n).withAcc (c ^^^ seed))
      rw [marshalWalk_withAcc] at hv
      rw [marshalSeq_state_of_integerKeys hn hk]
      refine ⟨v, ?_⟩
      simp only [streamSeq, hn, hk, Bool.false_eq_true, if_false, State.withEsz_esz, State.loadAcc, hv]
      rfl

theorem streamSeq_of_no_error {esize : I64} {seq : List Entry} (h : seqCanonicalError esize seq = none)
    (c : U32) (s : State) : streamSeq c esize seq s = checksumSeq c esize seq s := by
  rw [checksumSeq_of_no_error h]
  cases hn : esizeOfInt esize.toInt with
  | none => simp [seqCanonicalError_of_illegal_size hn] at h
  | some n =>
    have hk := integerKeys_of_seqCanonicalError_none hn h
    rw [seqCanonicalError_of_integerKeys hn hk] at h
    have hv := streamWalk_of_no_error h ((s.withEsz n).withAcc (c ^^^ seed))
    rw [marshalWalk_withAcc] at hv
    rw [marshalSeq_state_of_integerKeys hn hk, commandBytes_valueS hn]
    simp only [streamSeq, hn, hk, Bool.false_eq_true, if_false, State.withEsz_esz, State.loadAcc, hv]
    rfl

/-- Settles O24: the walks agree but for `ACC`, which folding the whole at the end gives as folding each value does. -/
theorem streamingEqualsWholeSequence : Obligations.StreamingEqualsWholeSequence := by
  refine fun c esize seq s => ⟨?_, fun h => streamSeq_of_no_error h c s⟩
  cases h : seqCanonicalError esize seq with
  | none => rw [streamSeq_of_no_error h]
  | some k =>
    obtain ⟨v, hv⟩ := streamSeq_of_error h c s
    rw [hv]
    rfl

end Sys2Proof.Machine
end

section
/-! The response as a function of the command (42_commands.md R140, 60_exceptions.md R169, R170), and the statements
about responses. -/

namespace Sys2Proof.Machine

/-! ### The response under either setting -/

theorem commandResponse_of_error {i : Instr} {k : ErrorKind} (h : canonicalError i = some k) :
    commandResponse i = .err k := by
  simp [commandResponse, h]

theorem commandResponse_of_no_error {i : Instr} (h : canonicalError i = none) :
    commandResponse i = .ok (engineExtend (startChecksum i) (commandBytes i)) := by
  simp [commandResponse, h]

theorem commandResponse_eq_ok {i : Instr} {c : U32} : commandResponse i = .ok c ↔
    canonicalError i = none ∧ engineExtend (startChecksum i) (commandBytes i) = c := by
  cases h : canonicalError i with
  | some k => simp [commandResponse_of_error h]
  | none => simp [commandResponse_of_no_error h]

section
variable (s : State) (i : Instr)

/-- Under CANONICAL the response is the one of the command alone. -/
theorem State.answerTo_of_canonical (h : s.params.errorSelect = .canonical) : s.answerTo i = commandResponse i := by
  cases hc : canonicalError i with
  | some k => rw [s.answerTo_of_error hc, commandResponse_of_error hc, s.reportedKind_canonical k _ h]
  | none => rw [s.answerTo_of_no_error hc, commandResponse_of_no_error hc]

/-- A checksum is the same under both settings. -/
theorem State.answerTo_eq_ok_iff (c : U32) : s.answerTo i = .ok c ↔ commandResponse i = .ok c := by
  cases hc : canonicalError i with
  | some k => simp [s.answerTo_of_error hc, commandResponse_of_error hc]
  | none => rw [s.answerTo_of_no_error hc, commandResponse_of_no_error hc]

end

theorem State.reportedKind_congr {s s' : State} (hp : s.params.errorSelect = s'.params.errorSelect)
    (hc : s.choices = s'.choices) (k : ErrorKind) (ks : List ErrorKind) :
    s.reportedKind k ks = s'.reportedKind k ks := by
  unfold State.reportedKind State.choosesFreely
  rw [hp, hc]

/-- The setting and the counter are all that a response reads of the state. -/
theorem State.answerTo_congr {s s' : State} (hp : s.params.errorSelect = s'.params.errorSelect)
    (hc : s.choices = s'.choices) (i : Instr) : s.answerTo i = s'.answerTo i := by
  cases h : canonicalError i with
  | some k => rw [s.answerTo_of_error h, s'.answerTo_of_error h, State.reportedKind_congr hp hc]
  | none => rw [s.answerTo_of_no_error h, s'.answerTo_of_no_error h]

/-- Settles O35: the response is `answerTo`, which reads the setting and the counter only, and those for errors only. -/
theorem responseDependsOnTheCommandAlone : Obligations.ResponseDependsOnTheCommandAlone := by
  intro i s s'
  obtain ⟨t, hexec, hans⟩ := exec_answers i s
  obtain ⟨t', hexec', hans'⟩ := exec_answers i s'
  refine ⟨t, t', _, _, hexec, hexec', hans, hans', fun h h' => ?canonical, fun c => ?checksum,
    fun h hc => s.answerTo_congr h hc i⟩
  case canonical => rw [s.answerTo_of_canonical i h, s'.answerTo_of_canonical i h']
  case checksum => rw [s.answerTo_eq_ok_iff, s'.answerTo_eq_ok_iff]

/-! ### The order of the errors (R169) -/

/-- The prior's error is the canonical one wherever it applies. -/
theorem canonicalError_of_prior_error {i : Instr} (h : .checksumOutOfRange ∈ applicable i) :
    canonicalError i = some .checksumOutOfRange := by
  have hseq : ∀ esize seq, .checksumOutOfRange ∉ seqErrors esize seq := fun esize seq hmem => by
    simp [mem_seqErrors_iff] at hmem
  cases i with
  | valueB data => cases h
  | valueS esize seq => exact absurd h (hseq esize seq)
  | extendB data prior =>
    exact canonicalError_extendB_of_illegal_prior (priorErrors_of_outOfRange (mem_priorErrors_iff.1 h).2) data
  | extendS esize seq prior =>
    have hprior := (List.mem_append.1 h).resolve_right (hseq esize seq)
    exact canonicalError_extendS_of_illegal_prior (priorErrors_of_outOfRange (mem_priorErrors_iff.1 hprior).2) esize seq

theorem hasNonPositiveKey_iff_position {e : Entry} (h : e.key ≠ .nonint) :
    hasNonPositiveKey e = true ↔ e.position ≤ 0 := by
  cases hk : e.key with
  | nonint => exact absurd hk h
  | int k => simp [hasNonPositiveKey, Entry.position, hk]

/-- A non-positive key makes the first entry in ascending order fail check 2b. -/
theorem seqCanonicalError_of_nonPositiveKey {esize : I64} {n : ESize} {seq : List Entry}
    (hn : esizeOfInt esize.toInt = some n) (hint : ∀ e ∈ seq, e.key ≠ .nonint)
    (hbad : ∃ e ∈ seq, hasNonPositiveKey e = true) : seqCanonicalError esize seq = some .nonPositiveKey := by
  have hk : seq.any hasNonIntegerKey = false := List.any_eq_false.2 fun e he hf =>
    hint e he (of_decide_eq_true hf)
  rw [seqCanonicalError_of_integerKeys hn hk]
  obtain ⟨e, he, hpos⟩ := hbad
  have hsorted := sortByPosition_sorted seq
  have hmem : ∀ x, x ∈ sortByPosition seq ↔ x ∈ seq := fun _ => mem_sortByPosition
  cases hl : sortByPosition seq with
  | nil =>
    rw [hl] at hmem
    cases (hmem e).2 he
  | cons x xs =>
    rw [hl] at hmem hsorted
    have hle : x.position ≤ e.position := by
      rcases List.mem_cons.1 ((hmem e).2 he) with rfl | hxs
      · exact le_refl _
      · exact List.rel_of_pairwise_cons hsorted hxs
    have hfirst : hasNonPositiveKey x = true := by
      rw [hasNonPositiveKey_iff_position (hint x ((hmem x).1 List.mem_cons_self))]
      exact hle.trans ((hasNonPositiveKey_iff_position (hint e he)).1 hpos)
    simp [entryError, hfirst]

/-- Settles O39: under CANONICAL the kind reported is the canonical one; a non-positive key is the least position. -/
theorem canonicalPrecedenceOfErrors : Obligations.CanonicalPrecedenceOfErrors := by
  refine ⟨fun i s h => ?response, fun i k => canonicalError_mem_applicable, fun esize n seq hn hint hbad => ?keys⟩
  case response =>
    rw [← s.answerTo_of_canonical i h]
    exact exec_answers i s
  case keys =>
    have hc := seqCanonicalError_of_nonPositiveKey hn hint hbad
    exact ⟨hc, fun prior hlo hhi =>
      (canonicalError_extendS_of_legal_prior (priorErrors_of_inRange hlo hhi) esize seq).trans hc⟩

/-- Settles O40: the free choice is among the applicable kinds, and there is none where the prior's error applies. -/
theorem anyApplicableReportsAnApplicableError : Obligations.AnyApplicableReportsAnApplicableError := by
  intro i s _
  obtain ⟨t, hexec, hans⟩ := exec_answers i s
  refine ⟨t, _, hexec, hans, fun k hk => ⟨?_, fun hprior => ?_⟩, s.answerTo_eq_ok_iff i⟩
  · cases hc : canonicalError i with
    | none =>
      rw [s.answerTo_of_no_error hc] at hk
      cases hk
    | some j =>
      rw [s.answerTo_of_error hc] at hk
      cases hk
      exact s.reportedKind_mem (canonicalError_mem_applicable hc)
  · rw [s.answerTo_of_prior_error (canonicalError_of_prior_error hprior)] at hk
    cases hk
    rfl

/-! ### Priors (R145, R149) -/

theorem checkPrior_of_inRange {prior : I64} (hlo : 0 ≤ prior.toInt) (hhi : prior.toInt ≤ 0xFFFFFFFF) :
    checkPrior prior = .ok (prior.setWidth 32) :=
  if_neg (by omega)

theorem checkPrior_of_outOfRange {prior : I64} (h : prior.toInt < 0 ∨ 0xFFFFFFFF < prior.toInt) :
    checkPrior prior = .error .checksumOutOfRange :=
  if_pos h

/-- A checksum stands for the same number as a prior. -/
theorem toInt_priorOfChecksum (c : U32) : (priorOfChecksum c).toInt = c.toNat := by
  have hc := c.isLt
  rw [priorOfChecksum, BitVec.toInt_eq_toNat_of_lt] <;> rw [BitVec.toNat_setWidth, Nat.mod_eq_of_lt (by omega)]
  omega

theorem setWidth_priorOfChecksum (c : U32) : (priorOfChecksum c).setWidth 32 = c := by
  rw [priorOfChecksum, BitVec.setWidth_setWidth_of_le c (by decide), BitVec.setWidth_eq]

theorem priorOfChecksum_inRange (c : U32) :
    0 ≤ (priorOfChecksum c).toInt ∧ (priorOfChecksum c).toInt ≤ 0xFFFFFFFF := by
  have hc := c.isLt
  rw [toInt_priorOfChecksum]
  omega

/-- Settles O31: a prior in range has zeros above its low 32 bits. -/
theorem checkPriorKeepsTheNumber : Obligations.CheckPriorKeepsTheNumber := by
  refine ⟨fun prior hlo hhi => ⟨_, checkPrior_of_inRange hlo hhi, ?number, rfl⟩, fun prior => checkPrior_of_outOfRange,
    fun c => ?checksum⟩
  case number =>
    have hnat : (prior.toNat : Int) = prior.toInt := by
      rw [BitVec.toInt_eq_toNat_cond] at hlo ⊢
      split at hlo <;> omega
    rw [BitVec.toNat_setWidth, Nat.mod_eq_of_lt (by omega)]
    exact hnat
  case checksum =>
    obtain ⟨hlo, hhi⟩ := priorOfChecksum_inRange c
    rw [checkPrior_of_inRange hlo hhi, setWidth_priorOfChecksum]

theorem exec_extendS_zero (esize : I64) (seq : List Entry) (s : State) :
    exec (.extendS esize seq 0) s = exec (.valueS esize seq) s :=
  exec_extendS_of_legal_prior s checkPrior_zero esize seq

/-- Settles O32: the prior 0 passes the check, and both commands run the same tail from 0. -/
theorem valueIsExtendFromZero : Obligations.ValueIsExtendFromZero :=
  ⟨fun data s => (exec_extendB_zero data s).symm, fun esize seq s => (exec_extendS_zero esize seq s).symm⟩

/-! ### Chaining (R149) -/

theorem startChecksum_extendB (data : Bytes) (prior : I64) : startChecksum (.extendB data prior) = prior.setWidth 32 :=
  rfl

theorem commandBytes_extendB (data : Bytes) (prior : I64) : commandBytes (.extendB data prior) = data := rfl

theorem startChecksum_extend (x : Payload) (p : I64) : startChecksum (x.extend p) = p.setWidth 32 := by
  cases x <;> rfl

theorem priorErrors_of_extend_no_error {x : Payload} {p : I64} (h : canonicalError (x.extend p) = none) :
    priorErrors p = [] := by
  cases x with
  | bytes data => exact List.head?_eq_none_iff.1 h
  | seq esize entries => exact List.head?_eq_none_iff.1 (Option.or_eq_none_iff.1 h).1

/-- The checksum of one EXTEND as the prior of another: the checksum of one EXTEND.B over the concatenation. -/
theorem commandResponse_extend_chained {x y : Payload} {p : I64} {c : U32} (hx : commandResponse (x.extend p) = .ok c)
    (hy : canonicalError (y.extend (priorOfChecksum c)) = none) :
    commandResponse (.extendB (commandBytes (x.extend p) ++ commandBytes (y.extend (priorOfChecksum c))) p) =
      commandResponse (y.extend (priorOfChecksum c)) := by
  obtain ⟨hno, hc⟩ := commandResponse_eq_ok.1 hx
  rw [startChecksum_extend] at hc
  have hp := priorErrors_of_extend_no_error hno
  rw [commandResponse_of_no_error (canonicalError_extendB_of_legal_prior hp _), commandResponse_of_no_error hy,
    startChecksum_extend, setWidth_priorOfChecksum]
  rw [startChecksum_extendB, commandBytes_extendB, engineExtend_append, hc]

/-- Settles O34: both ends give the response that depends on the command alone. -/
theorem chainedCommandsChecksumTheConcatenation : Obligations.ChainedCommandsChecksumTheConcatenation := by
  intro x y p s t c1 hexec hdel hy
  have hx : commandResponse (x.extend p) = .ok c1 := by
    rw [← s.answerTo_eq_ok_iff]
    simpa using (answers_of_exec hexec).delivered.symm.trans hdel
  have hc2 := commandResponse_of_no_error hy
  obtain ⟨u, hexecu, hansu⟩ := exec_answers (y.extend (priorOfChecksum c1)) t
  obtain ⟨v, hexecv, hansv⟩ := exec_answers
    (.extendB (commandBytes (x.extend p) ++ commandBytes (y.extend (priorOfChecksum c1))) p) s
  rw [(t.answerTo_eq_ok_iff _ _).2 hc2] at hansu
  rw [(s.answerTo_eq_ok_iff _ _).2 ((commandResponse_extend_chained hx hy).trans hc2)] at hansv
  exact ⟨u, v, _, hexecu, hansu, hexecv, hansv⟩

end Sys2Proof.Machine
end

section
/-! The statements about whole next states of the commands (42_commands.md R142 to R144, 10_state.md section 2). -/

namespace Sys2Proof.Machine

/-! ### Next states of the tails -/

/-- The engine loads a checksum inverted (R82, R83). -/
theorem xor_seed (c : U32) : c ^^^ seed = ~~~c := by
  have hseed : seed = BitVec.allOnes 32 := by decide
  rw [hseed, BitVec.xor_allOnes]

theorem checksumBytes_eq (c : U32) (data : Bytes) (s : State) : checksumBytes c data s =
    { s with
      phase := .idle, outstanding := none, pending := none, acc := foldBytes (~~~c) data,
      delivered := s.delivered ++ [.ok (engineExtend c data)] } := by
  rw [← xor_seed]
  rfl

/-- The prior's error is no free choice, so it changes nothing but the response. -/
theorem raise_prior_error {ks : List ErrorKind} (h : .checksumOutOfRange ∈ ks) (s : State) :
    s.raise .checksumOutOfRange ks =
      { s with
        phase := .idle, outstanding := none, pending := none,
        delivered := s.delivered ++ [.err .checksumOutOfRange] } := by
  have hfree : s.choosesFreely ks = false := by simp [State.choosesFreely, h]
  rw [State.raise, s.reportedKind_of_prior h, State.countChoice, hfree]
  rfl

theorem mem_applicable_of_prior_outOfRange {prior : I64} (h : prior.toInt < 0 ∨ 0xFFFFFFFF < prior.toInt) :
    (∀ data, .checksumOutOfRange ∈ applicable (.extendB data prior)) ∧
    ∀ esize seq, .checksumOutOfRange ∈ applicable (.extendS esize seq prior) :=
  ⟨fun _ => mem_priorErrors_iff.2 ⟨rfl, h⟩, fun _ _ => List.mem_append_left _ (mem_priorErrors_iff.2 ⟨rfl, h⟩)⟩

/-- Settles O30: the tail of the byte-string commands and the prior's error, field by field. -/
theorem byteStringCommandsAsWholeNextStates : Obligations.ByteStringCommandsAsWholeNextStates := by
  refine ⟨fun data s => ?value, fun data prior s hlo hhi => ?inRange, fun data prior s h => ?outOfRange⟩
  case value => exact congrArg Host.Outcome.next (checksumBytes_eq 0 data s)
  case inRange => rw [exec_extendB_of_legal_prior s (checkPrior_of_inRange hlo hhi), checksumBytes_eq]
  case outOfRange =>
    rw [exec_extendB_of_illegal_prior s (checkPrior_of_outOfRange h),
      raise_prior_error ((mem_applicable_of_prior_outOfRange h).1 data)]

/-- A sequence without an error: the response, and what the registers hold. -/
theorem checksumSeq_next_of_no_error {esize : I64} {n : ESize} {seq : List Entry}
    (hn : esizeOfInt esize.toInt = some n) (hc : seqCanonicalError esize seq = none) (c : U32) (s : State) :
    Answers s (checksumSeq c esize seq s) (.ok (engineExtend c (sequenceBytes n seq))) ∧
    (checksumSeq c esize seq s).acc = foldBytes (~~~c) (sequenceBytes n seq) ∧
    (checksumSeq c esize seq s).esz = n ∧ (checksumSeq c esize seq s).choices = s.choices ∧
    (checksumSeq c esize seq s).ebuf.drop n.toNat = s.ebuf.drop n.toNat := by
  obtain ⟨buf, hframe, hupper⟩ := marshalSeq_frame_of_size hn seq s
  rw [checksumSeq_of_no_error hc, commandBytes_valueS hn, hframe, ← xor_seed]
  exact ⟨⟨rfl, rfl, rfl, rfl, rfl, rfl⟩, rfl, rfl, rfl, hupper⟩

/-- A sequence with an error, under CANONICAL: that error, and neither `ACC` nor the counter is changed. -/
theorem checksumSeq_next_of_error {esize : I64} {seq : List Entry} {k : ErrorKind} {s : State}
    (hcan : s.params.errorSelect = .canonical) (hc : seqCanonicalError esize seq = some k) (c : U32) :
    Answers s (checksumSeq c esize seq s) (.err k) ∧
    (checksumSeq c esize seq s).acc = s.acc ∧ (checksumSeq c esize seq s).choices = s.choices := by
  have hparams : (marshalSeq esize seq s).1.params.errorSelect = .canonical := by rw [marshalSeq_params, hcan]
  obtain ⟨r, hans, hr⟩ := checksumSeq_answers c esize seq s
  rw [marshalSeq_of_error hc] at hr
  dsimp only at hr
  rw [s.reportedKind_canonical _ _ hcan] at hr
  refine ⟨hr ▸ hans, ?_, ?_⟩
  · rw [checksumSeq_of_error hc, State.raise_acc, marshalSeq_acc]
  · rw [checksumSeq_of_error hc, State.raise_choices, State.choosesFreely_canonical _ _ hparams, marshalSeq_choices]
    rfl

/-! ### Frames (30_encoding.md R63, R67) -/

theorem encode_valueS (esize : I64) (seq : List Entry) : encode (.valueS esize seq) =
    [1, 0, 0, 0] ++ leBytes 8 esize.toNat ++ leBytes 8 seq.length ++ seq.flatMap encodeEntry := by
  have hheader : leBytes 4 1 = [1, 0, 0, 0] := by decide
  rw [encode, headerWord, encodeOperands, encodeSeq, hheader]
  simp only [List.append_assoc]

theorem encode_extendS (esize prior : I64) (seq : List Entry) : encode (.extendS esize seq prior) =
    [3, 0, 0, 0] ++ leBytes 8 esize.toNat ++ leBytes 8 prior.toNat ++ leBytes 8 seq.length ++
      seq.flatMap encodeEntry := by
  have hheader : leBytes 4 3 = [3, 0, 0, 0] := by decide
  rw [encode, headerWord, encodeOperands, encodeSeq, hheader]
  simp only [List.append_assoc]

/-! ### VALUE.S and EXTEND.S -/

section
set_option maxRecDepth 8000

/-- The worked examples of `VALUE.S`. -/
theorem commandResponse_valueS_examples :
    commandResponse (.valueS 2 [⟨.int 1, .int 0x0102⟩, ⟨.int 2, .int 0x0304⟩]) = .ok 0x0F9B6810 ∧
    commandResponse (.valueS 2 [⟨.int 1, .int 0x0304⟩, ⟨.int 2, .int 0x0102⟩]) = .ok 0x0C4509AA ∧
    commandResponse (.valueS 3 [⟨.int 1, .int 5⟩]) = .err .invalidElementSize ∧
    commandResponse (.valueS 1 [⟨.int 0, .int 5⟩]) = .err .nonPositiveKey ∧
    commandResponse (.valueS 1 [⟨.int 1, .int 255⟩]) = .ok (engineExtend 0 [0xFF]) ∧
    commandResponse (.valueS 1 [⟨.int 1, .int 256⟩]) = .err (.valueOutOfRange .one) ∧
    commandResponse (.valueS 1 [⟨.int 1, .int (-129)⟩]) = .err (.valueOutOfRange .one) := by decide

theorem commandResponse_extendS_example :
    commandResponse (.extendS 1 [⟨.int 1, .int 255⟩, ⟨.int 2, .int (-1)⟩] 0xE3069283) = .ok 0x43483D86 := by decide

end

/-- Settles O27: the tail of a sequence command, from 0. -/
theorem valueSReturnsTheChecksumOrTheError : Obligations.ValueSReturnsTheChecksumOrTheError := by
  refine ⟨fun esize seq s n hn hc => ⟨_, rfl, ?_⟩, fun esize seq s k hcan hc => ⟨_, rfl, ?_⟩, encode_valueS,
    fun _ => rfl, fun _ => rfl, commandResponse_valueS_examples⟩
  · exact checksumSeq_next_of_no_error hn hc 0 s
  · exact checksumSeq_next_of_error hcan hc 0

/-- Settles O29: the prior's error, or the tail of a sequence command from the prior. -/
theorem extendSReturnsTheChecksumOrTheError : Obligations.ExtendSReturnsTheChecksumOrTheError := by
  refine ⟨fun esize prior seq s h => ?outOfRange, fun esize prior seq s n hlo hhi hn hc => ?checksum,
    fun esize prior seq s k hlo hhi hcan hc => ?error, encode_extendS, fun _ => rfl, fun _ => rfl,
    commandResponse_extendS_example⟩
  case outOfRange =>
    rw [exec_extendS_of_illegal_prior s (checkPrior_of_outOfRange h),
      raise_prior_error ((mem_applicable_of_prior_outOfRange h).2 esize seq)]
  case checksum =>
    exact ⟨_, exec_extendS_of_legal_prior s (checkPrior_of_inRange hlo hhi) esize seq,
      checksumSeq_next_of_no_error hn hc _ s⟩
  case error =>
    exact ⟨_, exec_extendS_of_legal_prior s (checkPrior_of_inRange hlo hhi) esize seq,
      checksumSeq_next_of_error hcan hc _⟩

theorem sequenceBytes_nil (n : ESize) : sequenceBytes n [] = [] := rfl

/-- Settles O23: no check fails on an empty sequence of a legal size, and nothing is folded in. -/
theorem emptySequenceLeavesTheChecksum : Obligations.EmptySequenceLeavesTheChecksum := by
  intro esize prior n s hn
  have hc : seqCanonicalError esize [] = none := seqCanonicalError_of_integerKeys hn rfl
  have hans : ∀ c, Answers s (checksumSeq c esize [] s) (.ok c) := fun c => by
    have h := (checksumSeq_next_of_no_error hn hc c s).1
    rwa [sequenceBytes_nil, engineExtend_nil] at h
  refine ⟨by rw [marshalSeq_of_no_error hc, commandBytes_valueS hn, sequenceBytes_nil], ⟨_, rfl, hans 0⟩,
    fun hlo hhi => ⟨_, exec_extendS_of_legal_prior s (checkPrior_of_inRange hlo hhi) esize [], hans _⟩⟩

/-! ### The frame of every command -/

/-- A command ends in an error, raised where only `EBUF` and `ESZ` may have changed, or in a checksum that leaves the
counter. -/
theorem exec_raises_or_responds {i : Instr} {s t : State} (h : exec i s = .next t) :
    (∃ m k ks, t = State.raise m k ks ∧ m.acc = s.acc ∧ m.choices = s.choices ∧ m.params = s.params ∧
      m.delivered = s.delivered) ∨
    t.choices = s.choices ∧ ∃ c, t.delivered = s.delivered ++ [.ok c] := by
  obtain rfl | ⟨c, data, rfl⟩ | ⟨c, esize, seq, rfl⟩ := exec_cases h
  case inl => exact .inl ⟨s, _, _, rfl, rfl, rfl, rfl, rfl⟩
  case inr.inl => exact .inr ⟨rfl, _, rfl⟩
  case inr.inr =>
    obtain ⟨z, buf, hframe, -⟩ := marshalSeq_frame esize seq s
    cases hc : seqCanonicalError esize seq with
    | some k =>
      rw [checksumSeq_of_error hc, hframe]
      exact .inl ⟨_, _, _, rfl, rfl, rfl, rfl, rfl⟩
    | none =>
      rw [checksumSeq_of_no_error hc, hframe]
      exact .inr ⟨rfl, _, rfl⟩

/-- What a sequence command leaves in `EBUF` and `ESZ`. -/
theorem checksumSeq_transients (c : U32) (esize : I64) (seq : List Entry) (s : State) :
    match esizeOfInt esize.toInt with
    | none => (checksumSeq c esize seq s).ebuf = s.ebuf ∧ (checksumSeq c esize seq s).esz = s.esz
    | some n => (checksumSeq c esize seq s).ebuf.drop n.toNat = s.ebuf.drop n.toNat ∧
        (checksumSeq c esize seq s).esz = n := by
  rw [checksumSeq_ebuf, checksumSeq_esz]
  cases hn : esizeOfInt esize.toInt with
  | none =>
    rw [marshalSeq_of_illegal_size hn]
    exact ⟨rfl, rfl⟩
  | some n =>
    obtain ⟨buf, hframe, hupper⟩ := marshalSeq_frame_of_size hn seq s
    rw [hframe]
    exact ⟨hupper, rfl⟩

/-- Settles O36: an error is raised where only `EBUF` and `ESZ` may have changed, a checksum leaves the counter, and the
marshaler is the only writer of `EBUF` and `ESZ`. -/
theorem commandsLeaveEverythingElseUnchanged : Obligations.CommandsLeaveEverythingElseUnchanged := by
  intro i s t hexec
  have hans := answers_of_exec hexec
  have hend := exec_raises_or_responds hexec
  refine ⟨hans.params, hans.issued, fun hcan => ?canonical, fun ⟨k, hk⟩ => ?error, fun ⟨c, hc⟩ => ?checksum,
    ?transients⟩
  case canonical =>
    obtain ⟨m, k, ks, rfl, -, hchoices, hparams, -⟩ | ⟨hchoices, -⟩ := hend
    · rw [State.raise_choices, State.choosesFreely_canonical _ _ (by rw [hparams, hcan]), hchoices]
      rfl
    · exact hchoices
  case error =>
    obtain ⟨m, k', ks, rfl, hacc, -⟩ | ⟨-, c, hc⟩ := hend
    · exact hacc
    · simp [hc] at hk
  case checksum =>
    obtain ⟨m, k, ks, rfl, -, -, -, hdel⟩ | ⟨hchoices, -⟩ := hend
    · simp [hdel] at hc
    · exact hchoices
  case transients =>
    cases i with
    | valueB data => cases hexec; exact ⟨rfl, rfl⟩
    | valueS esize seq => cases hexec; exact checksumSeq_transients 0 esize seq s
    | extendB data prior =>
      cases hp : checkPrior prior with
      | error k =>
        obtain ⟨-, rfl⟩ := checkPrior_error hp
        cases (exec_extendB_of_illegal_prior s hp data).symm.trans hexec
        exact ⟨rfl, rfl⟩
      | ok c =>
        cases (exec_extendB_of_legal_prior s hp data).symm.trans hexec
        exact ⟨rfl, rfl⟩
    | extendS esize seq prior =>
      cases hp : checkPrior prior with
      | error k =>
        obtain ⟨-, rfl⟩ := checkPrior_error hp
        cases (exec_extendS_of_illegal_prior s hp esize seq).symm.trans hexec
        simp [hp]
      | ok c =>
        cases (exec_extendS_of_legal_prior s hp esize seq).symm.trans hexec
        have htrans := checksumSeq_transients c esize seq s
        cases hn : esizeOfInt esize.toInt with
        | none => simpa [hp, hn] using htrans
        | some n => simpa [hp, hn] using htrans

end Sys2Proof.Machine
end

section
/-! The statements about runs: commands issued in a row, several instances, and Host programs (20_memory.md R51,
60_exceptions.md R177, 30_encoding.md R75, R76). -/

namespace Sys2Proof.Machine

/-! ### Commands issued in a row -/

/-- Settles O57: each step answers the next command, and leaves an IDLE state with the others still issued. -/
theorem issuedCommandsAreAnsweredInOrder : Obligations.IssuedCommandsAreAnsweredInOrder := by
  intro cmds
  induction cmds with
  | nil =>
    intro s hp _ _ hissued
    exact ⟨s, .refl s, hp, hissued, (List.append_nil _).symm⟩
  | cons i cmds ih =>
    intro s hp hcan hw hissued
    have hd := decodeUndoesEncode s.params i (hw i List.mem_cons_self)
    obtain ⟨t, hexec, hans⟩ := exec_answers i (s.accept i (cmds.map fun i => HostEvent.issue (encode i)))
    rw [State.answerTo_of_canonical (s.accept i _) i hcan] at hans
    have hparams : t.params = s.params := hans.params
    have hdel : t.delivered = s.delivered ++ [commandResponse i] := hans.delivered
    obtain ⟨u, hsteps, hidle, hdone, hall⟩ := ih t hans.phase (by rw [hparams, hcan])
      (fun j hj => by rw [hparams]; exact hw j (List.mem_cons_of_mem _ hj)) hans.issued
    refine ⟨u, .head ((step_idle_issue hp hissued hd).trans hexec) hsteps, hidle, hdone, ?_⟩
    rw [hall, hdel, List.append_assoc]
    rfl

/-! ### Several instances (R177) -/

/-- One step of a system: the member at place `k`, if there is one, takes a step of its own, and no other changes. -/
theorem stepInstance_next {k : Nat} {sys sys' : List State} (h : stepInstance k sys = .next sys') :
    sys'.length = sys.length ∧ (∀ j, j ≠ k → sys'[j]? = sys[j]?) ∧
      ∀ s, sys[k]? = some s → ∃ t, step s = .next t ∧ sys'[k]? = some t := by
  unfold stepInstance at h
  cases hk : sys[k]? with
  | none =>
    rw [hk] at h
    cases h
    exact ⟨rfl, fun _ _ => rfl, fun _ hs => by cases hs⟩
  | some s =>
    rw [hk] at h
    cases hstep : step s with
    | fault r => simp [hstep] at h
    | refused r => simp [hstep] at h
    | next t =>
      simp only [hstep] at h
      cases h
      have hlt : k < sys.length := (List.getElem?_eq_some_iff.1 hk).1
      refine ⟨List.length_set, fun j hj => List.getElem?_set_ne hj.symm, fun s' hs' => ?_⟩
      cases hs'
      exact ⟨t, hstep, List.getElem?_set_self hlt⟩

theorem runSchedule_cons_next {k : Nat} {ks : List Nat} {sys sys' : List State}
    (h : runSchedule (k :: ks) sys = .next sys') :
    ∃ mid, stepInstance k sys = .next mid ∧ runSchedule ks mid = .next sys' := by
  unfold runSchedule at h
  cases hk : stepInstance k sys with
  | fault r => simp [hk] at h
  | refused r => simp [hk] at h
  | next mid => exact ⟨mid, rfl, by simpa [hk] using h⟩

/-- Settles O58: by induction on the schedule; a step belongs to one place. -/
theorem instancesDoNotInterfere : Obligations.InstancesDoNotInterfere := by
  refine ⟨fun ks => ?_, fun n s hs => ?reset⟩
  case reset =>
    rw [List.eq_of_mem_replicate hs]
    rfl
  induction ks with
  | nil =>
    intro sys sys' h
    cases h
    exact ⟨rfl, fun j s hs => ⟨s, hs, .refl s⟩⟩
  | cons k ks ih =>
    intro sys sys' h
    obtain ⟨mid, hfirst, hrest⟩ := runSchedule_cons_next h
    obtain ⟨hlen, hothers, hown⟩ := stepInstance_next hfirst
    obtain ⟨hlen', hsteps⟩ := ih mid sys' hrest
    refine ⟨hlen'.trans hlen, fun j s hs => ?_⟩
    by_cases hj : j = k
    case pos =>
      subst hj
      obtain ⟨t, hstep, hmid⟩ := hown s hs
      obtain ⟨u, hu, hrun⟩ := hsteps j t hmid
      rw [List.count_cons_self]
      exact ⟨u, hu, .head hstep hrun⟩
    case neg =>
      rw [List.count_cons_of_ne (Ne.symm hj)]
      exact hsteps j s ((hothers j hj).trans hs)

/-! ### Chaining in the Host (R75, R76) -/

/-- `EXTEND.B` has no free choice: its only error is the prior's. -/
theorem State.answerTo_extendB (s : State) (data : Bytes) (prior : I64) :
    s.answerTo (.extendB data prior) = commandResponse (.extendB data prior) := by
  cases hc : canonicalError (.extendB data prior) with
  | none => rw [s.answerTo_of_no_error hc, commandResponse_of_no_error hc]
  | some k =>
    cases mem_priorErrors (canonicalError_mem_applicable hc)
    rw [s.answerTo_of_prior_error hc, commandResponse_of_error hc]

/-- An IDLE machine answers an `EXTEND.B` within the bound, and is IDLE with the same parameters afterwards. -/
theorem issueCommand_extendB {s : State} (hp : s.phase = .idle) {data : Bytes} (hfits : dataFits s.params data = true)
    (prior : I64) : ∃ t, issueCommand (.extendB data prior) s = .ok (commandResponse (.extendB data prior), t) ∧
      t.phase = .idle ∧ t.params = s.params := by
  obtain ⟨t, hexec, hans⟩ := exec_answers (.extendB data prior) (s.accept (.extendB data prior) s.issued)
  rw [State.answerTo_extendB] at hans
  exact ⟨t, issueCommand_of_exec hp (decodeUndoesEncode s.params (.extendB data prior) hfits) hexec hans.delivered,
    hans.phase, hans.params⟩

/-- Whether the prior is refused does not depend on the data. -/
theorem commandResponse_extendB_of_error {data : Bytes} {prior : I64} {k : ErrorKind}
    (h : commandResponse (.extendB data prior) = .err k) (data' : Bytes) :
    commandResponse (.extendB data' prior) = .err k := by
  cases hc : canonicalError (.extendB data prior) with
  | none =>
    rw [commandResponse_of_no_error hc] at h
    cases h
  | some j =>
    rw [commandResponse_of_error hc] at h
    cases h
    exact commandResponse_of_error hc

theorem canonicalError_extendB_priorOfChecksum (data : Bytes) (c : U32) :
    canonicalError (.extendB data (priorOfChecksum c)) = none :=
  canonicalError_extendB_of_legal_prior
    (priorErrors_of_inRange (priorOfChecksum_inRange c).1 (priorOfChecksum_inRange c).2) data

theorem dataFits_of_append {p : Params} {a b : Bytes} (h : dataFits p (a ++ b) = true) :
    dataFits p a = true ∧ dataFits p b = true := by
  simp only [dataFits, Bool.and_eq_true, decide_eq_true_eq, List.length_append] at h ⊢
  omega

/-- The chain answers what one `EXTEND.B` over the concatenation does. -/
theorem issueChain_extendB (d : Bytes) (ds : List Bytes) (prior : I64) (s : State) (hp : s.phase = .idle)
    (hfits : dataFits s.params (d ++ ds.flatten) = true) :
    ∃ t, issueChain d ds prior s = .ok (commandResponse (.extendB (d ++ ds.flatten) prior), t) := by
  induction ds generalizing d prior s with
  | nil =>
    rw [List.flatten_nil, List.append_nil] at hfits ⊢
    obtain ⟨t, hissue, -⟩ := issueCommand_extendB hp hfits prior
    exact ⟨t, hissue⟩
  | cons d' ds ih =>
    rw [List.flatten_cons] at hfits ⊢
    obtain ⟨hfirst, hrest⟩ := dataFits_of_append hfits
    obtain ⟨t, hissue, hidle, hparams⟩ := issueCommand_extendB hp hfirst prior
    unfold issueChain
    rw [hissue]
    cases hr : commandResponse (.extendB d prior) with
    | err k => exact ⟨t, by rw [commandResponse_extendB_of_error hr]⟩
    | ok c =>
      obtain ⟨u, hu⟩ := ih d' (priorOfChecksum c) t hidle (by rw [hparams]; exact hrest)
      have hchain := commandResponse_extend_chained (x := .bytes d) (y := .bytes (d' ++ ds.flatten)) hr
        (canonicalError_extendB_priorOfChecksum _ c)
      exact ⟨u, hu.trans (congrArg (fun r => Except.ok (r, u)) hchain.symm)⟩

/-- Settles O59: the chain and the one command give the response of the concatenation. -/
theorem chainEqualsOneExtend : Obligations.ChainEqualsOneExtend := by
  intro d ds prior s hp hfits
  obtain ⟨t, hchain⟩ := issueChain_extendB d ds prior s hp hfits
  obtain ⟨u, hone, -⟩ := issueCommand_extendB hp hfits prior
  exact ⟨_, t, u, hchain, hone⟩

theorem resolvePrior_of_no_checksum {b : Bindings} {h : Nat} (hno : ∀ c, b.lookup h ≠ some (.ok c)) :
    resolvePrior b (.name h) = .error (.illegalPrior h) := by
  cases hb : b.lookup h with
  | none => simp [resolvePrior, hb]
  | some r =>
    cases r with
    | ok c => exact absurd hb (hno c)
    | err k => simp [resolvePrior, hb]

/-- Settles O60: a name resolves to the number of its checksum, or stops the line before anything is issued. -/
theorem onlyChecksumsCanBeChained : Obligations.OnlyChecksumsCanBeChained := by
  refine ⟨fun b h => resolvePrior_of_no_checksum, fun b h c hb => ⟨priorOfChecksum c, ?bound, toInt_priorOfChecksum c⟩,
    fun b s data h hno => ?extendB, fun b s esize seq h hno => ?extendS, fun b s d ds h hno => ?chainB⟩
  case bound => simp [resolvePrior, hb]
  all_goals
    rw [issueHostCommand, resolvePrior_of_no_checksum hno]
    rfl

end Sys2Proof.Machine
end

section
/-! The other statements about frames (30_encoding.md R62 to R73, R77): header words, layouts, response frames, and the
order of the refusal reasons. -/

namespace Sys2Proof

open Sys2Proof.Machine

/-! ### Headers and layouts -/

theorem header?_encode (i : Instr) : header? (encode i) = some (headerWord i) := by
  rw [encode_eq_frameWith]
  exact header?_frameWith i i.body

/-- Settles O41: a reserved bit is the first reason of all; a frame that decodes is the frame of its command. -/
theorem headerWordSelectsTheCommand : Obligations.HeaderWordSelectsTheCommand := by
  refine ⟨fun p f h hh h4 => ?reserved, fun p f i hd => ?selected, fun _ => rfl, fun _ _ => rfl, fun _ _ => rfl,
    fun _ _ _ => rfl⟩
  case reserved =>
    have hbits : hasReservedHeaderBits f = true := by simp [hasReservedHeaderBits, hh, h4]
    rw [decode_eq_ite, hbits, if_pos rfl]
  case selected =>
    obtain ⟨rfl, -⟩ := encodeUndoesDecode p f i hd
    exact header?_encode i

theorem length_encode (i : Instr) : (encode i).length = i.fixedFields.length + 8 + i.unit * i.count := by
  rw [encode_eq_frameWith, length_frameWith, i.length_body]

/-- The bytes of a word, lowest first. -/
theorem leBytes_eq_map_extractLsb' (v : I64) :
    leBytes 8 v.toNat = (List.range 8).map fun i => v.extractLsb' (8 * i) 8 := by
  apply List.ext_getElem?
  intro i
  by_cases hi : i < 8
  · rw [getElem?_leBytes _ hi, List.getElem?_map, List.getElem?_range hi, Option.map_some]
    congr 1
    apply BitVec.eq_of_toNat_eq
    rw [BitVec.toNat_ofNat, BitVec.extractLsb'_toNat, Nat.shiftRight_eq_div_pow, Nat.pow_mul]
  · rw [List.getElem?_eq_none (by simpa using hi), List.getElem?_eq_none (by simpa using hi)]

/-- Settles O42: the encoder writes the fields in this order. -/
theorem frameLayouts : Obligations.FrameLayouts := by
  refine ⟨fun data => ⟨rfl, ?_⟩, fun esize seq => ⟨rfl, ?_⟩, fun data prior => ⟨rfl, ?_⟩,
    fun esize prior seq => ⟨encode_extendS_fields esize seq prior, ?_⟩,
    fun v => ⟨rfl, leBytes_eq_map_extractLsb' v⟩, rfl, fun e => ⟨rfl, length_encodeTV e.key, length_encodeTV e.val⟩⟩
  all_goals simp [length_encode, Instr.fixedFields, Instr.operandFields, Instr.unit, Instr.isSeq, Instr.count]

/-! ### Response frames (R68 to R70) -/

theorem ofFrame_frame_ok (c : U32) : Response.ofFrame (Response.ok c).frame = some (.ok c) := by
  have hread : BitVec.ofNat 32 (leNat (leBytes 4 c.toNat)) = c := by
    rw [leNat_leBytes_of_lt (by simpa using c.isLt), BitVec.ofNat_toNat, BitVec.setWidth_eq]
  exact congrArg (fun v => some (Response.ok v)) hread

/-- Settles O43: one case per kind of response. -/
theorem responseFramesAreReadBack : Obligations.ResponseFramesAreReadBack := by
  refine ⟨fun _ => rfl, rfl, rfl, rfl, rfl, fun _ => rfl, rfl, fun r => ?status, fun r hr => ?readBack⟩
  case status => cases r <;> rfl
  case readBack =>
    cases r with
    | ok c => exact ⟨ofFrame_frame_ok c, rfl⟩
    | err k =>
      cases k with
      | badSignature => exact absurd rfl hr
      | valueOutOfRange n => cases n <;> exact ⟨rfl, rfl⟩
      | _ => exact ⟨rfl, rfl⟩

/-! ### The order of the reasons (R71, R73) -/

/-- The decoder reports the first reason that applies. -/
theorem decode_eq_error_iff {p : Params} {f : Bytes} {r : FrameRefusal} : decode p f = .error r ↔
    ∃ before after, refusalList p f = before ++ (r, true) :: after ∧ ∀ x ∈ before, x.2 = false := by
  have hrefusal : decode p f = .error r ↔ refusalOf p f = some r := by
    unfold decode
    cases refusalOf p f <;> simp
  rw [hrefusal, refusalOf, Option.map_eq_some_iff]
  constructor
  · rintro ⟨⟨r', b⟩, hfind, rfl⟩
    obtain ⟨rfl, before, after, hsplit, hbefore⟩ := List.find?_eq_some_iff_append.1 hfind
    exact ⟨before, after, hsplit, fun x hx => by simpa using hbefore x hx⟩
  · rintro ⟨before, after, hsplit, hbefore⟩
    exact ⟨(r, true), List.find?_eq_some_iff_append.2 ⟨rfl, before, after, hsplit,
      fun x hx => by simp [hbefore x hx]⟩, rfl⟩

/-! ### Reserved tags and payloads of a sequence frame -/

/-- The slot that a legal tagged value gives. -/
def slotOf (v : TaggedValue) : Byte × Bytes := ((encodeTV v).headD 0, (encodeTV v).tail)

theorem isLegalSlot_slotOf (v : TaggedValue) : IsLegalSlot (slotOf v) :=
  ⟨v, 8, by cases v <;> simp [slotOf, encodeTV]⟩

/-- Legal tagged values, then a tag byte: the slots of a sequence frame that announces more values than the
legal ones. -/
theorem slotsOf_frameWith_front {i : Instr} (hs : i.isSeq = true) {n : Nat} (hn : n < 2 ^ 64)
    {front : List TaggedValue} (hfront : front.length < 2 * n) (tag : Byte) (rest : Bytes) :
    ∃ k, slotsOf (i.frameWith n (front.flatMap encodeTV ++ tag :: rest)) =
      front.map slotOf ++ (tag, rest.take 8) :: taggedSlots k (rest.drop 8) := by
  have hlen : front.length < (i.frameWith n (front.flatMap encodeTV ++ tag :: rest)).length := by
    have : (front.flatMap encodeTV).length = 9 * front.length := by
      simp [List.length_flatMap, Nat.mul_comm]
    rw [length_frameWith, List.length_append, List.length_cons, this]
    omega
  obtain ⟨k, hk⟩ := Nat.exists_eq_add_of_lt (lt_min hfront hlen)
  refine ⟨k, ?_⟩
  rw [slotsOf_frameWith i _ hn, if_pos hs, hk, Nat.add_assoc, taggedSlots_flatMap_append]
  rfl

section
variable {p : Params} {i : Instr} (hs : i.isSeq = true) {n : Nat} (hn : n < 2 ^ 64) {front : List TaggedValue}
  (hfront : front.length < 2 * n)
include hs hn hfront

theorem decode_of_reserved_tag {tag : Byte} (htag : 2 ≤ tag.toNat) (rest : Bytes) :
    decode p (i.frameWith n (front.flatMap encodeTV ++ tag :: rest)) = .error .reservedTag := by
  obtain ⟨k, hslots⟩ := slotsOf_frameWith_front hs hn hfront tag rest
  have hbad : (tag != 0 && tag != 1) = true := by
    simp only [Bool.and_eq_true, bne_iff_ne]
    constructor <;> rintro rfl <;> simp at htag
  have hreason : hasReservedTag (i.frameWith n (front.flatMap encodeTV ++ tag :: rest)) = true := by
    rw [hasReservedTag, hslots, List.any_append, List.any_cons, hbad, Bool.true_or, Bool.or_true]
  rw [decode_eq_ite, hasReservedHeaderBits_of_header (header?_frameWith i _), hreason]
  rfl

theorem decode_of_nonint_payload {payload : Bytes} (hlen : payload.length = 8) (hbad : ∃ b ∈ payload, b ≠ 0)
    (after : List TaggedValue) :
    decode p (i.frameWith n (front.flatMap encodeTV ++ 0x01 :: (payload ++ after.flatMap encodeTV))) =
      .error .nonintPayload := by
  obtain ⟨k, hslots⟩ := slotsOf_frameWith_front hs hn hfront 0x01 (payload ++ after.flatMap encodeTV)
  rw [List.take_left' hlen, List.drop_left' hlen] at hslots
  have htags : hasReservedTag (i.frameWith n (front.flatMap encodeTV ++ 0x01 :: (payload ++ after.flatMap encodeTV))) =
      false := by
    rw [hasReservedTag, hslots, List.any_eq_false]
    intro s hmem
    rw [Bool.not_eq_true]
    rcases List.mem_append.1 hmem with hmem | hmem
    · obtain ⟨v, -, rfl⟩ := List.mem_map.1 hmem
      exact (isLegalSlot_slotOf v).tag
    · rcases List.mem_cons.1 hmem with rfl | hmem
      · rfl
      · obtain ⟨v, rfl⟩ := taggedSlots_legal k after s hmem
        exact (isLegalSlot_slotOf v).tag
  have hnonzero : payload.any (· != 0) = true := by simpa using hbad
  have hreason : hasNonintPayload
      (i.frameWith n (front.flatMap encodeTV ++ 0x01 :: (payload ++ after.flatMap encodeTV))) = true := by
    rw [hasNonintPayload, hslots, List.any_append, List.any_cons, hlen, hnonzero]
    simp
  rw [decode_eq_ite, hasReservedHeaderBits_of_header (header?_frameWith i _), htags, hreason]
  rfl

end

theorem keysDistinct_of_nonint_keys {seq : List Entry} (h : ∀ e ∈ seq, e.key = .nonint) :
    keysDistinct seq = true := by
  have hnone : intKeys seq = [] := List.filterMap_eq_nil_iff.2 fun e he => by rw [h e he]; rfl
  rw [keysDistinct, hnone]
  rfl

/-- The fixed fields of a `.S` frame are those of a command without entries. -/
theorem seqFixedFields {esize prior : I64} {fixed : Bytes} (h : fixed = leBytes 4 1 ++ leBytes 8 esize.toNat ∨
      fixed = leBytes 4 3 ++ leBytes 8 esize.toNat ++ leBytes 8 prior.toNat) :
    ∃ i : Instr, i.isSeq = true ∧ fixed = i.fixedFields := by
  rcases h with rfl | rfl
  · exact ⟨.valueS esize [], rfl, rfl⟩
  · exact ⟨.extendS esize [] prior, rfl, List.append_assoc ..⟩

/-- Settles O44: the reasons are looked for in order; within the bounds a duplicate key is the only one left, and a bad
slot behind legal ones comes before every reason about lengths. -/
theorem duplicateIntegerKeysAreRefused : Obligations.DuplicateIntegerKeysAreRefused := by
  refine ⟨fun p esize prior seq hfits hdup => ?duplicate, fun seq => keysDistinct_of_nonint_keys, fun p f => rfl,
    fun p f r => decode_eq_error_iff,
    fun p esize prior n fixed front after tag payload rest hfixed hn hfront => ?slots⟩
  case duplicate =>
    simp only [seqFits, Bool.and_eq_true, decide_eq_true_eq] at hfits
    have hrefused : ∀ i : Instr, i.isSeq = true → i.count = seq.length → i.entries = seq →
        decode p (encode i) = .error .duplicateKey := fun i hs hcount hentries => by
      rw [decode_encode_of_bound p i (by omega) (by rw [Params.bound, if_pos hs]; omega), hentries, hdup]
      rfl
    exact ⟨hrefused _ rfl rfl rfl, hrefused _ rfl rfl rfl⟩
  case slots =>
    obtain ⟨i, hs, rfl⟩ := seqFixedFields hfixed
    refine ⟨fun htag => ?tag, fun hlen hbad => ?payload⟩
    case tag => simpa [Instr.frameWith] using decode_of_reserved_tag (p := p) hs hn hfront htag rest
    case payload => simpa [Instr.frameWith] using decode_of_nonint_payload (p := p) hs hn hfront hlen hbad after

/-- Settles O49: the decoder on the five frames. -/
theorem sampleFramesDecode : Obligations.SampleFramesDecode := ⟨rfl, rfl, rfl, rfl, rfl⟩

end Sys2Proof
end
